-- ==== Sys2Proof/Word.lean ====
section
/-! DEFINITION. The word types of the machine (00_scope.md R6, R7): every value is unsigned, nothing is ever
sign-extended. -/

namespace Sys2Proof

/-- 8 bits: a general register, a timer, one byte of memory, the immediate `nn`. -/
abbrev Byte := BitVec 8

/-- 16 bits: `PC`, `I`, a return address, the instruction word. -/
abbrev Word := BitVec 16

/-- The 12-bit immediate `nnn` (R72). -/
abbrev Imm12 := BitVec 12

/-- The number of a general register `V0`..`VF`, as the fields `x` and `y` hold it (R21, R74). -/
abbrev Reg := Fin 16

/-- The number of one of the sixteen keys (R30, R186). -/
abbrev KeyIndex := Fin 16

/-- `zext_16` of R7. -/
abbrev zext16 {w : Nat} (v : BitVec w) : Word := v.setWidth 16

/-- `VF`, the general register that doubles as the flag (R22). -/
abbrev VF : Reg := 15

end Sys2Proof
end

