-- ==== Sys2Proof/Config.lean ====
section
/-! DEFINITION. The parameters of the hardware (00_scope.md R6) and its one free value, the random byte. The other
parameter of R6, the glyph table, is the field `glyph` of State (log entry 36). -/

namespace Sys2Proof.Config

/-- `MEM_SIZE`: bytes of memory, addresses 0 to 4095. -/
abbrev memSize : Nat := 4096

/-- `BASE`: the load address and the value of `PC` after reset. -/
abbrev base : Nat := 0x200

/-- `MAX_IMAGE` = `MEM_SIZE - BASE`: the largest program image `LOAD` accepts. -/
abbrev maxImage : Nat := 3584

/-- `GLYPH_BYTES` = `GLYPH_COUNT` * `GLYPH_STRIDE`: the glyph table is at addresses 0 to 79. -/
abbrev glyphBytes : Nat := 80

/-- `GLYPH_STRIDE`: bytes per glyph. -/
abbrev glyphStride : Nat := 5

/-- `FB_W`: columns of the framebuffer. -/
abbrev fbWidth : Nat := 64

/-- `FB_H`: rows of the framebuffer. -/
abbrev fbHeight : Nat := 32

/-- `STACK_DEPTH`: return-address slots. -/
abbrev stackDepth : Nat := 16

/-- `RND`: the random byte of the n-th executed `Cxnn`, a free draw under no law (R35, R122; log entry 1). It has no
body, so no proof can know a value of it. -/
opaque rnd : Nat → Byte

end Sys2Proof.Config
end

