-- ==== Sys2Proof/Machine/Glyph.lean ====
section
/-! DEFINITION. The glyph table, parameter `GLYPH` of 00_scope.md R6: its type, and the default contents that
20_memory.md R53 gives, from general knowledge (PRESUMED, unsafe for a claim that uses a value of it; log entry 3). -/

namespace Sys2Proof.Machine

/-- The contents of `GLYPH[0..79]` (R6, R53). -/
abbrev GlyphTable := Vector Byte Config.glyphBytes

/-- The glyphs of digits 0 to 3 (R53). -/
def glyphs0 : List Byte :=
  [0xF0, 0x90, 0x90, 0x90, 0xF0] ++ [0x20, 0x60, 0x20, 0x20, 0x70] ++
  [0xF0, 0x10, 0xF0, 0x80, 0xF0] ++ [0xF0, 0x10, 0xF0, 0x10, 0xF0]

/-- The glyphs of digits 4 to 7 (R53). -/
def glyphs4 : List Byte :=
  [0x90, 0x90, 0xF0, 0x10, 0x10] ++ [0xF0, 0x80, 0xF0, 0x10, 0xF0] ++
  [0xF0, 0x80, 0xF0, 0x90, 0xF0] ++ [0xF0, 0x10, 0x20, 0x40, 0x40]

/-- The glyphs of digits 8 to B (R53). -/
def glyphs8 : List Byte :=
  [0xF0, 0x90, 0xF0, 0x90, 0xF0] ++ [0xF0, 0x90, 0xF0, 0x10, 0xF0] ++
  [0xF0, 0x90, 0xF0, 0x90, 0x90] ++ [0xE0, 0x90, 0xE0, 0x90, 0xE0]

/-- The glyphs of digits C to F (R53). -/
def glyphsC : List Byte :=
  [0xF0, 0x80, 0x80, 0x80, 0xF0] ++ [0xE0, 0x90, 0x90, 0x90, 0xE0] ++
  [0xF0, 0x80, 0xF0, 0x80, 0xF0] ++ [0xF0, 0x80, 0xF0, 0x80, 0x80]

/-- The default of `GLYPH[0..79]` (R53): digit `d` at `5*d .. 5*d+4`. -/
def defaultGlyph : GlyphTable := ⟨(glyphs0 ++ glyphs4 ++ glyphs8 ++ glyphsC).toArray, rfl⟩

end Sys2Proof.Machine
end

