-- ==== Sys2Proof/Machine/State.lean ====
section
/-! DEFINITION. The state of the core as plain data (10_state.md R20, with R34: nothing else), the reasons a step can
stop, and the state right after reset (R36). -/

namespace Sys2Proof.Machine

/-- The contents of `MEM` (20_memory.md R50): the bytes that differ from the reset contents, as address and byte, the
addresses strictly rising. What an unlisted address reads as is resetByte, in Machine/Ops.lean (log entry 28). -/
abbrev Memory := List Host.Cell

/-- `FB` (R31): 32 rows of 64 one-bit pixels; the pixel in column `x` and row `y` is bit `x` of row `y`, and is the
cell `FB[x + 64*y]` (log entry 24). -/
abbrev Framebuffer := Vector (BitVec 64) 32

/-- The values of `FAULT_CAUSE` (60_exceptions.md R200); its 3-bit code is causeCode, in Machine/Ops.lean. -/
inductive FaultCause where
  /-- 0: the core is not faulted -/
  | noFault
  /-- 1: the fetch reached past the end of memory (R201) -/
  | addrFetch
  /-- 2: a memory-indexed instruction reached past the end of memory (R201) -/
  | addrData
  /-- 3: `2nnn` with `SP` = 16 (R202) -/
  | stackOverflow
  /-- 4: `00EE` with `SP` = 0 (R202) -/
  | stackUnderflow
  /-- 5: an illegal word (R203) -/
  | decode
  /-- 6: `Ex9E` or `ExA1` with `V[x]` >= 16 (R205) -/
  | keyIndex
  deriving DecidableEq, Repr

/-- The architectural state (R20), the parameter of the core it belongs to (R6, log entry 36), and the model's own
counter of random draws (log entry 1). -/
structure State where
  /-- `PC` (R23) -/
  pc : Word
  /-- `V[0..15]` (R21) -/
  v : Vector Byte 16
  /-- `I` (R25) -/
  i : Word
  /-- `STACK[0..15]` (R26) -/
  stack : Vector Word 16
  /-- `SP`, the number of return addresses on the stack, 0..16 (R27, log entry 14) -/
  sp : Fin 17
  /-- `DT` (R28) -/
  dt : Byte
  /-- `ST` (R29) -/
  st : Byte
  /-- `KEYS[0..15]`, true = pressed (R30) -/
  keys : Vector Bool 16
  /-- `FB` (R31) -/
  fb : Framebuffer
  /-- `MEM` (R32) -/
  mem : Memory
  /-- `FAULT_CAUSE` (R33, R204) -/
  faultCause : FaultCause
  /-- `FAULT_IR` (R33, R204) -/
  faultIr : Word
  /-- `FAULT_INFO` (R33, R204) -/
  faultInfo : Word
  /-- the hardware's parameter `GLYPH` (00_scope.md R6), constant: the argument of the model that says what reset puts in
  `MEM[0..79]` (log entry 36) -/
  glyph : GlyphTable
  /-- the model's own: how many random bytes have been drawn (log entries 1 and 2) -/
  draws : Nat
  deriving DecidableEq, Repr

/-- The reasons a step stops with a fault: there is none. Every fault of the spec is taken by the core itself, as a
next state with the fault record written (60_exceptions.md R208), and a faulted core still answers every step (R210). -/
inductive Fault where
  deriving DecidableEq, Repr

/-- The reasons for which the model gives an operation no move. -/
inductive Refusal where
  /-- An instruction without a meaning; raised by an arm of exec only, and by none: every instruction has its meaning.
  Safe. -/
  | notModelled (mnemonic : String)
  /-- Signal level only (Machine/Ports.lean, edge): the host presented a command other than `IDLE` or `LOAD_DATA`
  inside an open `LOAD` burst, against its duty of 50_host_interface.md R182 and R191 (d). No instruction and no step
  raises it. Safe: the model proves nothing about what follows (log entry 26). -/
  | commandInBurst
  deriving DecidableEq, Repr

/-- The state right after `RESET`, and after power-on (R36), of the core with the default glyph table. -/
def State.reset : State where
  pc := 0x0200
  v := Vector.replicate 16 0
  i := 0
  stack := Vector.replicate 16 0
  sp := 0
  dt := 0
  st := 0
  keys := Vector.replicate 16 false
  fb := Vector.replicate 32 0
  mem := []
  faultCause := .noFault
  faultIr := 0
  faultInfo := 0
  glyph := defaultGlyph
  draws := 0

/-- The state right after `RESET` of the core whose parameter `GLYPH` is `g` (R6, R36). -/
def State.resetWith (g : GlyphTable) : State := { State.reset with glyph := g }

end Sys2Proof.Machine
end

