-- ==== Sys2Proof/Machine/Ops.lean ====
section
/-! DEFINITION. The named operations over memory, registers, stack, keys and framebuffer, and taking a fault. Every
meaning goes through these. -/

namespace Sys2Proof.Machine

/-! ### Memory (20_memory.md) -/

/-- What an address nothing has written reads as, in the core whose glyph table is `g`: the reset contents of R36, the
table in 0..79 and zero above. -/
def resetByte (g : GlyphTable) (a : Nat) : Byte := if h : a < Config.glyphBytes then g[a] else 0

/-- `MEM[a]`. -/
def readByte (g : GlyphTable) : Memory → Nat → Byte
  | [], a => resetByte g a
  | (k, b) :: rest, a => if a = k then b else readByte g rest a

/-- `MEM[a] <- b`, in canonical form: an address that gets its reset contents back is no longer listed. -/
def writeByte (g : GlyphTable) : Memory → Nat → Byte → Memory
  | [], a, b => if b = resetByte g a then [] else [(a, b)]
  | (k, c) :: rest, a, b =>
    if a < k then (if b = resetByte g a then (k, c) :: rest else (a, b) :: (k, c) :: rest)
    else if a = k then (if b = resetByte g a then rest else (a, b) :: rest)
    else (k, c) :: writeByte g rest a b

/-- `MEM[a]`, `MEM[a+1]`, ...: `k` bytes at ascending addresses. -/
def readBytes (g : GlyphTable) (m : Memory) (a : Nat) : Nat → List Byte
  | 0 => []
  | k + 1 => readByte g m a :: readBytes g m (a + 1) k

/-- `MEM[a] <- b0`, `MEM[a+1] <- b1`, ...: bytes at ascending addresses. -/
def writeBytes (g : GlyphTable) (m : Memory) (a : Nat) : List Byte → Memory
  | [] => m
  | b :: bs => writeBytes g (writeByte g m a b) (a + 1) bs

/-- R58: every one of the `k` bytes at `a` lies in 0..4095, on unbounded integers; an access of no byte is always
valid (R161 corner case a). -/
def rangeValid (a k : Nat) : Bool := decide (k = 0) || decide (a + k ≤ Config.memSize)

/-- The canonical form from address `lo` on: addresses strictly rising and below 4096, no byte equal to its reset
contents. -/
def wfFrom (g : GlyphTable) (lo : Nat) : Memory → Bool
  | [] => true
  | (a, b) :: rest =>
    decide (lo ≤ a) && decide (a < Config.memSize) && decide (b ≠ resetByte g a) && wfFrom g (a + 1) rest

/-- The canonical form of memory. -/
def Memory.wf (m : Memory) (g : GlyphTable) : Bool := wfFrom g 0 m

/-- `MEM[a]` in a state. -/
def State.byteAt (s : State) (a : Nat) : Byte := readByte s.glyph s.mem a

/-- Memory is in canonical form. -/
def State.memWf (s : State) : Bool := s.mem.wf s.glyph

/-- `MemRead` (R54) of a whole range (R156): its bytes, or none where it reaches past the end of memory. -/
def State.memRead (s : State) (a k : Nat) : Option (List Byte) :=
  if rangeValid a k then some (readBytes s.glyph s.mem a k) else none

/-- Bytes at ascending addresses to memory, unchecked: the caller has checked the range. -/
def State.putBytes (s : State) (a : Nat) (bs : List Byte) : State :=
  { s with mem := writeBytes s.glyph s.mem a bs }

/-- `MemWrite` (R55) of a whole range (R156), or none where the range reaches past the end of memory, and then nothing
is written. -/
def State.memWrite (s : State) (a : Nat) (bs : List Byte) : Option State :=
  if rangeValid a bs.length then some (s.putBytes a bs) else none

/-! ### Registers (10_state.md R21 to R25) -/

/-- `V[x]`. -/
def State.reg (s : State) (x : Reg) : Byte := s.v[x]

/-- `V[x] <- b`; no register is hardwired (R21). -/
def State.setReg (s : State) (x : Reg) (b : Byte) : State := { s with v := s.v.set x.val b x.isLt }

/-- `V[i] <- b0`, `V[i+1] <- b1`, ...: the ascending loop of R155 over the register file. -/
def fillRegs (v : Vector Byte 16) (i : Nat) : List Byte → Vector Byte 16
  | [] => v
  | b :: bs => fillRegs (if h : i < 16 then v.set i b h else v) (i + 1) bs

/-- `PC <- t`. -/
def State.setPc (s : State) (t : Word) : State := { s with pc := t }

/-- The fetch's `PC <- (PC + 2) mod 65536` (R56). -/
def State.advance (s : State) : State := s.setPc (s.pc + 2)

/-- `skip` of 41_skip.md R110. -/
def State.skip (s : State) : State := s.setPc (s.pc + 2)

/-- Skip when the condition holds, else nothing (R110). -/
def State.skipIf (s : State) (c : Bool) : State := if c then s.skip else s

/-- `I <- a`. -/
def State.setI (s : State) (a : Word) : State := { s with i := a }

/-- `DT <- b`. -/
def State.setDt (s : State) (b : Byte) : State := { s with dt := b }

/-- `ST <- b`. -/
def State.setSt (s : State) (b : Byte) : State := { s with st := b }

/-- The random byte of this step (R35), and the state that has drawn it (log entry 1). -/
def State.draw (s : State) : Byte × State := (Config.rnd s.draws, { s with draws := s.draws + 1 })

/-! ### Stack (R26, R27) -/

/-- `STACK[SP] <- a; SP <- SP + 1`, none where the stack is full (40_control.md R103). -/
def State.push (s : State) (a : Word) : Option State :=
  if h : s.sp.val < 16 then
    some { s with stack := s.stack.set s.sp.val a h, sp := ⟨s.sp.val + 1, by omega⟩ }
  else none

/-- `SP <- SP - 1`, then `STACK[SP]`, none where the stack is empty; the slot keeps its value (R101). -/
def State.pop (s : State) : Option (Word × State) :=
  if h : 0 < s.sp.val then
    some (s.stack[s.sp.val - 1]'(by omega), { s with sp := ⟨s.sp.val - 1, by omega⟩ })
  else none

/-! ### Keys (R30) -/

/-- `KEYS[k]`. -/
def State.key (s : State) (k : KeyIndex) : Bool := s.keys[k]

/-- The least pressed key, scanning from key 0 upward (46_keys_timers.md R172). -/
def State.lowestPressed (s : State) : Option KeyIndex := (List.finRange 16).find? s.key

/-! ### Framebuffer (R31) -/

/-- The pixel in column `x` and row `y`. -/
def pixel (f : Framebuffer) (x : Fin 64) (y : Fin 32) : Bool := f[y].getLsbD x.val

/-- The cell `FB[k]`: column `k mod 64`, row `k div 64` (R31). -/
def cell (f : Framebuffer) (k : Fin 2048) : Bool := pixel f ⟨k.val % 64, by omega⟩ ⟨k.val / 64, by omega⟩

/-- XOR the pixel in column `x` and row `y` with 1. -/
def togglePixel (f : Framebuffer) (x : Fin 64) (y : Fin 32) : Framebuffer :=
  f.set y.val (f[y] ^^^ BitVec.twoPow 64 x.val) y.isLt

/-- All 2048 cells 0. -/
def clearFb : Framebuffer := Vector.replicate 32 0

/-! ### Faults (60_exceptions.md) -/

/-- The 3-bit code `FAULT_CAUSE` holds (R200); code 7 is never produced. -/
def causeCode : FaultCause → BitVec 3
  | .noFault => 0
  | .addrFetch => 1
  | .addrData => 2
  | .stackOverflow => 3
  | .stackUnderflow => 4
  | .decode => 5
  | .keyIndex => 6

/-- The core is faulted: `FAULT_CAUSE` != 0 (R33). -/
def State.faulted (s : State) : Bool := decide (s.faultCause ≠ .noFault)

/-- Taking a fault, from a state in which the faulting step's execute phase has written nothing (R208): the record is
written and nothing else changes. `PC` is as the fetch phase left it. -/
def State.takeFault (s : State) (cause : FaultCause) (ir info : Word) : State :=
  { s with faultCause := cause, faultIr := ir, faultInfo := info }

/-- The only return from a fault: `RESET` (R210, 50_host_interface.md R185). Every piece of state takes its reset
value; the core's glyph table is its parameter, and the random draws already made stay made (log entry 2). -/
def State.hostReset (s : State) : State := { State.resetWith s.glyph with draws := s.draws }

/-- The detail of an addressing fault: `max(a, 4096)`, the lowest invalid address of the access (R54, R156). -/
def addrInfo (a : Word) : Word := BitVec.ofNat 16 (max a.toNat Config.memSize)

/-! ### Fetch (20_memory.md R56) -/

/-- The instruction word at `PC`, big-endian (R57); none where `PC + 1 >= 4096`. -/
def State.fetch (s : State) : Option Word :=
  match s.memRead s.pc.toNat 2 with
  | some [hi, lo] => some (hi ++ lo)
  | _ => none

/-- The addressing fault of a fetch (R201, R208): `PC` is left as it was and there is no instruction word. -/
def State.fetchFault (s : State) : State := s.takeFault .addrFetch 0 (addrInfo s.pc)

/-- The decode fault of the illegal word `ir` (R203, R208): `PC` stays fetch-advanced. -/
def State.decodeFault (s : State) (ir : Word) : State := s.advance.takeFault .decode ir 0

/-! ### Placing an instruction for the next step (log entry 25) -/

/-- The state with a clear fault record: itself where the core is not faulted. -/
def State.clearRecord (s : State) : State := if s.faulted then s.takeFault .noFault 0 0 else s

/-- The state in which a step fetches: the fault record cleared if it holds a fault, and `PC` at the load address if
no instruction can be fetched from where it is; otherwise the state itself. -/
def State.readyToFetch (s : State) : State :=
  if rangeValid s.pc.toNat 2 then s.clearRecord else s.clearRecord.setPc (BitVec.ofNat 16 Config.base)

/-- The instruction word `ir` stored at `PC`, high byte at the lower address (R57), in a state that fetches it. -/
def State.placeWord (s : State) (ir : Word) : State :=
  s.readyToFetch.putBytes s.readyToFetch.pc.toNat [ir.extractLsb' 8 8, ir.extractLsb' 0 8]

end Sys2Proof.Machine
end

