-- ==== Sys2Proof/Machine/Flags.lean ====
section
/-! DEFINITION. The one flag, general register `VF` (10_state.md R22), and the six computations of its value: carry,
not-borrow (two instructions), shifted-out bit (two instructions), collision. -/

namespace Sys2Proof.Machine

/-- The value a flag write stores: 0x00 or 0x01, all 8 bits (R22). -/
def flagByte (f : Bool) : Byte := if f then 1 else 0

/-- Carry out of bit 7: the exact sum exceeds 255 (43_alu.md R135). -/
def carryFlag (a b : Byte) : Bool := decide (a.toNat + b.toNat > 255)

/-- No borrow in `a - b`: `a >= b`, so 1 at equality (R136, R138; log entry 10). -/
def notBorrowFlag (a b : Byte) : Bool := decide (a.toNat ≥ b.toNat)

/-- The bit a right shift by 1 moves out: bit 0 (R137). -/
def shiftedOutRight (a : Byte) : Bool := a.getLsbD 0

/-- The bit a left shift by 1 moves out: bit 7 (R139). -/
def shiftedOutLeft (a : Byte) : Bool := a.getLsbD 7

/-- `VF <- flag`. -/
def State.setFlag (s : State) (f : Bool) : State := s.setReg VF (flagByte f)

/-- Steps (3) and (4) of R130: the result to `V[x]`, then the flag to `VF`, so that the flag stands when `x` = F
(log entry 9). -/
def State.setRegFlag (s : State) (x : Reg) (result : Byte) (f : Bool) : State := (s.setReg x result).setFlag f

end Sys2Proof.Machine
end

