-- ==== Sys2Proof/Machine/Alu.lean ====
section
/-! DEFINITION. The register-to-register ALU family (43_alu.md R130): operands read first, the result to `V[x]`, then
the flag of the five flag-writing instructions to `VF`. -/

namespace Sys2Proof.Machine

/-- R131: `V[x] <- V[y]`. -/
def execLdReg (x y : Reg) (s : State) : Host.Outcome State Fault Refusal := .next (s.setReg x (s.reg y))

/-- R132: `V[x] <- V[x] | V[y]`; no flag. -/
def execOr (x y : Reg) (s : State) : Host.Outcome State Fault Refusal := .next (s.setReg x (s.reg x ||| s.reg y))

/-- R133: `V[x] <- V[x] & V[y]`; no flag. -/
def execAnd (x y : Reg) (s : State) : Host.Outcome State Fault Refusal := .next (s.setReg x (s.reg x &&& s.reg y))

/-- R134: `V[x] <- V[x] ^ V[y]`; no flag. -/
def execXor (x y : Reg) (s : State) : Host.Outcome State Fault Refusal := .next (s.setReg x (s.reg x ^^^ s.reg y))

/-- R135: `V[x] <- V[x] + V[y]`, `VF` = carry. -/
def execAdd (x y : Reg) (s : State) : Host.Outcome State Fault Refusal :=
  .next (s.setRegFlag x (s.reg x + s.reg y) (carryFlag (s.reg x) (s.reg y)))

/-- R136: `V[x] <- V[x] - V[y]`, `VF` = not borrow. -/
def execSub (x y : Reg) (s : State) : Host.Outcome State Fault Refusal :=
  .next (s.setRegFlag x (s.reg x - s.reg y) (notBorrowFlag (s.reg x) (s.reg y)))

/-- R137: `V[x] <- V[x] >> 1`, `VF` = the old bit 0; `V[y]` takes no part (R78). -/
def execShr (x _y : Reg) (s : State) : Host.Outcome State Fault Refusal :=
  .next (s.setRegFlag x (s.reg x >>> 1) (shiftedOutRight (s.reg x)))

/-- R138: `V[x] <- V[y] - V[x]`, `VF` = not borrow. -/
def execSubn (x y : Reg) (s : State) : Host.Outcome State Fault Refusal :=
  .next (s.setRegFlag x (s.reg y - s.reg x) (notBorrowFlag (s.reg y) (s.reg x)))

/-- R139: `V[x] <- V[x] << 1`, `VF` = the old bit 7; `V[y]` takes no part (R78). -/
def execShl (x _y : Reg) (s : State) : Host.Outcome State Fault Refusal :=
  .next (s.setRegFlag x (s.reg x <<< 1) (shiftedOutLeft (s.reg x)))

end Sys2Proof.Machine
end

