-- ==== Sys2Proof/Machine/Operands.lean ====
section
/-! DEFINITION. The operand forms beyond a register and an immediate (30_encoding.md R74): the values and addresses
the instructions derive from `V`, `I` and their immediates. -/

namespace Sys2Proof.Machine

/-- An immediate address `nnn`, zero-extended (R74). -/
def immAddr (nnn : Imm12) : Word := zext16 nnn

/-- The target of `Bnnn`: `V[0] + nnn` on 16 bits, not reduced to 12 (40_control.md R104). -/
def indexedTarget (v0 : Byte) (nnn : Imm12) : Word := zext16 v0 + zext16 nnn

/-- `I + V[x]` modulo 65536 (44_index_memory.md R151). -/
def indexPlus (i : Word) (v : Byte) : Word := i + zext16 v

/-- The address of the glyph of `v`: `v * 5`, the whole byte, unmasked (R152). -/
def glyphAddr (v : Byte) : Word := zext16 v * 5

/-- The key a register's value names; none at 16 and above (46_keys_timers.md R176). -/
def keyOperand (v : Byte) : Option KeyIndex := if h : v.toNat < 16 then some ⟨v.toNat, h⟩ else none

/-- The decimal digits of a byte, hundreds first, each as its binary value (R153). -/
def bcdDigits (v : Byte) : List Byte :=
  [BitVec.ofNat 8 (v.toNat / 100), BitVec.ofNat 8 (v.toNat / 10 % 10), BitVec.ofNat 8 (v.toNat % 10)]

/-- `V[0]`, ..., `V[x]`, the registers `Fx55` stores (R154). -/
def State.regsUpTo (s : State) (x : Reg) : List Byte := s.v.toList.take (x.val + 1)

/-- How many registers `V[0..x]` are. -/
def blockLength (x : Reg) : Nat := x.val + 1

end Sys2Proof.Machine
end

