-- ==== Sys2Proof/Machine/ConstRandom.lean ====
section
/-! DEFINITION. Immediate load, immediate add and random (42_const_random.md): LD, ADD, RND. -/

namespace Sys2Proof.Machine

/-- R120: `V[x] <- nn`. -/
def execLdImm (x : Reg) (nn : Byte) (s : State) : Host.Outcome State Fault Refusal := .next (s.setReg x nn)

/-- R121: `V[x] <- (V[x] + nn) mod 256`; no flag. -/
def execAddImm (x : Reg) (nn : Byte) (s : State) : Host.Outcome State Fault Refusal := .next (s.setReg x (s.reg x + nn))

/-- R122: `V[x] <- rnd & nn`, with a fresh draw (log entry 1). -/
def execRnd (x : Reg) (nn : Byte) (s : State) : Host.Outcome State Fault Refusal :=
  .next (s.draw.2.setReg x (s.draw.1 &&& nn))

end Sys2Proof.Machine
end

