-- ==== Sys2Proof/Syntax.lean ====
section
/-! DEFINITION. The instructions: one constructor per row of the opcode map (30_encoding.md R75), in the table's
order. Register fields and immediates have exactly the width the encoding gives them (R72, R74); the row count `n` of
`Dxyn` is a number, which WellFormed bounds. -/

namespace Sys2Proof

inductive Instr where
  /-- `0000` (R100) -/
  | nop
  /-- `00E0` (R160) -/
  | cls
  /-- `00EE` (R101) -/
  | ret
  /-- `1nnn` (R102) -/
  | jp (nnn : Imm12)
  /-- `2nnn` (R103) -/
  | call (nnn : Imm12)
  /-- `3xnn` (R111) -/
  | seImm (x : Reg) (nn : Byte)
  /-- `4xnn` (R112) -/
  | sneImm (x : Reg) (nn : Byte)
  /-- `5xy0` (R113) -/
  | seReg (x y : Reg)
  /-- `6xnn` (R120) -/
  | ldImm (x : Reg) (nn : Byte)
  /-- `7xnn` (R121) -/
  | addImm (x : Reg) (nn : Byte)
  /-- `8xy0` (R131) -/
  | ldReg (x y : Reg)
  /-- `8xy1` (R132) -/
  | or (x y : Reg)
  /-- `8xy2` (R133) -/
  | and (x y : Reg)
  /-- `8xy3` (R134) -/
  | xor (x y : Reg)
  /-- `8xy4` (R135) -/
  | add (x y : Reg)
  /-- `8xy5` (R136) -/
  | sub (x y : Reg)
  /-- `8xy6` (R137); `y` is decoded and ignored (R78) -/
  | shr (x y : Reg)
  /-- `8xy7` (R138) -/
  | subn (x y : Reg)
  /-- `8xyE` (R139); `y` is decoded and ignored (R78) -/
  | shl (x y : Reg)
  /-- `9xy0` (R114) -/
  | sneReg (x y : Reg)
  /-- `Annn` (R150) -/
  | ldI (nnn : Imm12)
  /-- `Bnnn` (R104) -/
  | jpV0 (nnn : Imm12)
  /-- `Cxnn` (R122) -/
  | rnd (x : Reg) (nn : Byte)
  /-- `Dxyn` (R161): `n` sprite rows -/
  | drw (x y : Reg) (n : Nat)
  /-- `Ex9E` (R170) -/
  | skp (x : Reg)
  /-- `ExA1` (R171) -/
  | sknp (x : Reg)
  /-- `Fx07`, `LD Vx, DT` (R173) -/
  | ldVxDt (x : Reg)
  /-- `Fx0A`, `LD Vx, K` (R172) -/
  | ldVxK (x : Reg)
  /-- `Fx15`, `LD DT, Vx` (R174) -/
  | ldDtVx (x : Reg)
  /-- `Fx18`, `LD ST, Vx` (R175) -/
  | ldStVx (x : Reg)
  /-- `Fx1E`, `ADD I, Vx` (R151) -/
  | addI (x : Reg)
  /-- `Fx29`, `LD F, Vx` (R152) -/
  | ldF (x : Reg)
  /-- `Fx33`, `LD B, Vx` (R153) -/
  | ldB (x : Reg)
  /-- `Fx55`, `LD [I], Vx` (R154) -/
  | ldMemVx (x : Reg)
  /-- `Fx65`, `LD Vx, [I]` (R155) -/
  | ldVxMem (x : Reg)
  deriving DecidableEq, Repr

end Sys2Proof
end

