-- ==== Sys2Proof/Decode.lean ====
section
/-! DEFINITION. From instruction words to Instr and back (30_encoding.md R70 to R79): the fields, the decoder (the
nested form of R76), the encoder, and the opcode map of R75 as rows of mask and match. -/

namespace Sys2Proof

/-! ### Fields (R72) -/

/-- `d1 = ir[15:12]`, the family. -/
def d1 (ir : Word) : BitVec 4 := ir.extractLsb' 12 4

/-- `d2 = ir[11:8]`. -/
def d2 (ir : Word) : BitVec 4 := ir.extractLsb' 8 4

/-- `d3 = ir[7:4]`. -/
def d3 (ir : Word) : BitVec 4 := ir.extractLsb' 4 4

/-- `d4 = ir[3:0]`. -/
def d4 (ir : Word) : BitVec 4 := ir.extractLsb' 0 4

/-- The register a 4-bit field names (R21, R74). -/
def regOf (field : BitVec 4) : Reg := ⟨field.toNat, field.isLt⟩

/-- The 4-bit field that names a register. -/
def fieldOf (r : Reg) : BitVec 4 := BitVec.ofNat 4 r.val

/-- `x`, the register named by `d2`. -/
def fieldX (ir : Word) : Reg := regOf (d2 ir)

/-- `y`, the register named by `d3`. -/
def fieldY (ir : Word) : Reg := regOf (d3 ir)

/-- `n = d4` as a number: the row count of a sprite. -/
def fieldN (ir : Word) : Nat := (d4 ir).toNat

/-- `nn = ir[7:0]`. -/
def fieldNN (ir : Word) : Byte := ir.extractLsb' 0 8

/-- `nnn = ir[11:0]`. -/
def fieldNNN (ir : Word) : Imm12 := ir.extractLsb' 0 12

/-! ### The decoder -/

/-- Why bytes are no instruction: fewer than two of them, or an illegal word, by the family whose row of R77's table
it falls in. -/
inductive Reject where
  /-- fewer than two bytes (R70) -/
  | truncated
  /-- `0nnn` other than 0x0000, 0x00E0, 0x00EE -/
  | illegal0
  /-- `5xyk` with `k` != 0 -/
  | illegal5
  /-- `8xyk` with `k` in 8, 9, A, B, C, D, F -/
  | illegal8
  /-- `9xyk` with `k` != 0 -/
  | illegal9
  /-- `Exkk` with `kk` neither 9E nor A1 -/
  | illegalE
  /-- `Fxkk` with `kk` not one of the nine -/
  | illegalF
  deriving DecidableEq, Repr

/-- Family 0: three single words (R76). -/
def decode0 (ir : Word) : Except Reject Instr :=
  if ir = 0x0000#16 then .ok .nop
  else if ir = 0x00E0#16 then .ok .cls
  else if ir = 0x00EE#16 then .ok .ret
  else .error .illegal0

/-- Family 8: nine values of `d4` (R76). -/
def decode8 (ir : Word) : Except Reject Instr :=
  match d4 ir with
  | 0x0#4 => .ok (.ldReg (fieldX ir) (fieldY ir))
  | 0x1#4 => .ok (.or (fieldX ir) (fieldY ir))
  | 0x2#4 => .ok (.and (fieldX ir) (fieldY ir))
  | 0x3#4 => .ok (.xor (fieldX ir) (fieldY ir))
  | 0x4#4 => .ok (.add (fieldX ir) (fieldY ir))
  | 0x5#4 => .ok (.sub (fieldX ir) (fieldY ir))
  | 0x6#4 => .ok (.shr (fieldX ir) (fieldY ir))
  | 0x7#4 => .ok (.subn (fieldX ir) (fieldY ir))
  | 0xE#4 => .ok (.shl (fieldX ir) (fieldY ir))
  | _ => .error .illegal8

/-- Family E: two values of `nn` (R76). -/
def decodeE (ir : Word) : Except Reject Instr :=
  match fieldNN ir with
  | 0x9E#8 => .ok (.skp (fieldX ir))
  | 0xA1#8 => .ok (.sknp (fieldX ir))
  | _ => .error .illegalE

/-- Family F: nine values of `nn` (R76). -/
def decodeF (ir : Word) : Except Reject Instr :=
  match fieldNN ir with
  | 0x07#8 => .ok (.ldVxDt (fieldX ir))
  | 0x0A#8 => .ok (.ldVxK (fieldX ir))
  | 0x15#8 => .ok (.ldDtVx (fieldX ir))
  | 0x18#8 => .ok (.ldStVx (fieldX ir))
  | 0x1E#8 => .ok (.addI (fieldX ir))
  | 0x29#8 => .ok (.ldF (fieldX ir))
  | 0x33#8 => .ok (.ldB (fieldX ir))
  | 0x55#8 => .ok (.ldMemVx (fieldX ir))
  | 0x65#8 => .ok (.ldVxMem (fieldX ir))
  | _ => .error .illegalF

/-- Decode one instruction word: the nested form of R76, a switch on `d1`. Total; an illegal word (R77) is rejected
under its family's name. -/
def decode (ir : Word) : Except Reject Instr :=
  match d1 ir with
  | 0x0#4 => decode0 ir
  | 0x1#4 => .ok (.jp (fieldNNN ir))
  | 0x2#4 => .ok (.call (fieldNNN ir))
  | 0x3#4 => .ok (.seImm (fieldX ir) (fieldNN ir))
  | 0x4#4 => .ok (.sneImm (fieldX ir) (fieldNN ir))
  | 0x5#4 => if d4 ir = 0 then .ok (.seReg (fieldX ir) (fieldY ir)) else .error .illegal5
  | 0x6#4 => .ok (.ldImm (fieldX ir) (fieldNN ir))
  | 0x7#4 => .ok (.addImm (fieldX ir) (fieldNN ir))
  | 0x8#4 => decode8 ir
  | 0x9#4 => if d4 ir = 0 then .ok (.sneReg (fieldX ir) (fieldY ir)) else .error .illegal9
  | 0xA#4 => .ok (.ldI (fieldNNN ir))
  | 0xB#4 => .ok (.jpV0 (fieldNNN ir))
  | 0xC#4 => .ok (.rnd (fieldX ir) (fieldNN ir))
  | 0xD#4 => .ok (.drw (fieldX ir) (fieldY ir) (fieldN ir))
  | 0xE#4 => decodeE ir
  | _ => decodeF ir

/-- The word of two bytes, the one at the lower address in bits 15:8 (R57). -/
def wordOfBytes (hi lo : Byte) : Word := hi ++ lo

/-- Decode the instruction at the front of a byte stream, high byte first (R71), and give the rest of the stream. -/
def decodeBytes : List Byte → Except Reject (Instr × List Byte)
  | hi :: lo :: rest =>
    match decode (wordOfBytes hi lo) with
    | .ok i => .ok (i, rest)
    | .error r => .error r
  | _ => .error .truncated

/-! ### The encoder -/

/-- Format NNN of R73: `{d1, nnn}`. -/
def wordNNN (family : BitVec 4) (nnn : Imm12) : Word := family ++ nnn

/-- Format XNN of R73: `{d1, x, nn}`; also format X, whose low byte is opcode. -/
def wordXNN (family : BitVec 4) (x : Reg) (nn : Byte) : Word := family ++ fieldOf x ++ nn

/-- Formats XY and XYN of R73: `{d1, x, y, d4}`. -/
def wordXYN (family : BitVec 4) (x y : Reg) (n : BitVec 4) : Word := family ++ fieldOf x ++ fieldOf y ++ n

/-- The instruction word of an instruction (R73, R75). -/
def encode : Instr → Word
  | .nop => 0x0000
  | .cls => 0x00E0
  | .ret => 0x00EE
  | .jp nnn => wordNNN 0x1 nnn
  | .call nnn => wordNNN 0x2 nnn
  | .seImm x nn => wordXNN 0x3 x nn
  | .sneImm x nn => wordXNN 0x4 x nn
  | .seReg x y => wordXYN 0x5 x y 0x0
  | .ldImm x nn => wordXNN 0x6 x nn
  | .addImm x nn => wordXNN 0x7 x nn
  | .ldReg x y => wordXYN 0x8 x y 0x0
  | .or x y => wordXYN 0x8 x y 0x1
  | .and x y => wordXYN 0x8 x y 0x2
  | .xor x y => wordXYN 0x8 x y 0x3
  | .add x y => wordXYN 0x8 x y 0x4
  | .sub x y => wordXYN 0x8 x y 0x5
  | .shr x y => wordXYN 0x8 x y 0x6
  | .subn x y => wordXYN 0x8 x y 0x7
  | .shl x y => wordXYN 0x8 x y 0xE
  | .sneReg x y => wordXYN 0x9 x y 0x0
  | .ldI nnn => wordNNN 0xA nnn
  | .jpV0 nnn => wordNNN 0xB nnn
  | .rnd x nn => wordXNN 0xC x nn
  | .drw x y n => wordXYN 0xD x y (BitVec.ofNat 4 n)
  | .skp x => wordXNN 0xE x 0x9E
  | .sknp x => wordXNN 0xE x 0xA1
  | .ldVxDt x => wordXNN 0xF x 0x07
  | .ldVxK x => wordXNN 0xF x 0x0A
  | .ldDtVx x => wordXNN 0xF x 0x15
  | .ldStVx x => wordXNN 0xF x 0x18
  | .addI x => wordXNN 0xF x 0x1E
  | .ldF x => wordXNN 0xF x 0x29
  | .ldB x => wordXNN 0xF x 0x33
  | .ldMemVx x => wordXNN 0xF x 0x55
  | .ldVxMem x => wordXNN 0xF x 0x65

/-- The two bytes of an instruction in the order memory holds them (R57, R71). -/
def encodeBytes (i : Instr) : List Byte := [(encode i).extractLsb' 8 8, (encode i).extractLsb' 0 8]

/-- The instruction word whose bits opcode_table.json numbers as `w`, of which the row has `nbits`. -/
def tableWord (nbits w : Nat) : Word := BitVec.ofNat 16 (w % 2 ^ nbits)

/-- What the decoder reads from the bytes of an instruction of the opcode table, laid out as memory holds them. -/
def decodeTableWord (nbits w : Nat) : Option Instr :=
  match decodeBytes [(tableWord nbits w).extractLsb' 8 8, (tableWord nbits w).extractLsb' 0 8] with
  | .ok (i, _) => some i
  | .error _ => none

/-! ### The opcode map (R75) -/

/-- One row of the opcode map: its number, mask and match. -/
structure OpcodeRow where
  number : Nat
  mask : Word
  value : Word
  deriving DecidableEq, Repr

/-- The word is this row's instruction exactly when `ir & mask == match` (R75). -/
def rowMatches (row : OpcodeRow) (ir : Word) : Bool := (ir &&& row.mask) == row.value

/-- Rows 1 to 10 and 20 to 24 of R75: the families of one instruction, and family 0. -/
def opcodeMapMain : List OpcodeRow :=
  [⟨1, 0xFFFF, 0x0000⟩, ⟨2, 0xFFFF, 0x00E0⟩, ⟨3, 0xFFFF, 0x00EE⟩, ⟨4, 0xF000, 0x1000⟩, ⟨5, 0xF000, 0x2000⟩,
   ⟨6, 0xF000, 0x3000⟩, ⟨7, 0xF000, 0x4000⟩, ⟨8, 0xF00F, 0x5000⟩, ⟨9, 0xF000, 0x6000⟩, ⟨10, 0xF000, 0x7000⟩,
   ⟨20, 0xF00F, 0x9000⟩, ⟨21, 0xF000, 0xA000⟩, ⟨22, 0xF000, 0xB000⟩, ⟨23, 0xF000, 0xC000⟩, ⟨24, 0xF000, 0xD000⟩]

/-- Rows 11 to 19 of R75: family 8. -/
def opcodeMap8 : List OpcodeRow :=
  [⟨11, 0xF00F, 0x8000⟩, ⟨12, 0xF00F, 0x8001⟩, ⟨13, 0xF00F, 0x8002⟩, ⟨14, 0xF00F, 0x8003⟩, ⟨15, 0xF00F, 0x8004⟩,
   ⟨16, 0xF00F, 0x8005⟩, ⟨17, 0xF00F, 0x8006⟩, ⟨18, 0xF00F, 0x8007⟩, ⟨19, 0xF00F, 0x800E⟩]

/-- Rows 25 to 35 of R75: families E and F. -/
def opcodeMapEF : List OpcodeRow :=
  [⟨25, 0xF0FF, 0xE09E⟩, ⟨26, 0xF0FF, 0xE0A1⟩, ⟨27, 0xF0FF, 0xF007⟩, ⟨28, 0xF0FF, 0xF00A⟩, ⟨29, 0xF0FF, 0xF015⟩,
   ⟨30, 0xF0FF, 0xF018⟩, ⟨31, 0xF0FF, 0xF01E⟩, ⟨32, 0xF0FF, 0xF029⟩, ⟨33, 0xF0FF, 0xF033⟩, ⟨34, 0xF0FF, 0xF055⟩,
   ⟨35, 0xF0FF, 0xF065⟩]

/-- The complete opcode map of R75, 35 rows. -/
def opcodeMap : List OpcodeRow := opcodeMapMain ++ opcodeMap8 ++ opcodeMapEF

/-- The number of the row of R75 an instruction is. -/
def rowNumber : Instr → Nat
  | .nop => 1
  | .cls => 2
  | .ret => 3
  | .jp _ => 4
  | .call _ => 5
  | .seImm _ _ => 6
  | .sneImm _ _ => 7
  | .seReg _ _ => 8
  | .ldImm _ _ => 9
  | .addImm _ _ => 10
  | .ldReg _ _ => 11
  | .or _ _ => 12
  | .and _ _ => 13
  | .xor _ _ => 14
  | .add _ _ => 15
  | .sub _ _ => 16
  | .shr _ _ => 17
  | .subn _ _ => 18
  | .shl _ _ => 19
  | .sneReg _ _ => 20
  | .ldI _ => 21
  | .jpV0 _ => 22
  | .rnd _ _ => 23
  | .drw _ _ _ => 24
  | .skp _ => 25
  | .sknp _ => 26
  | .ldVxDt _ => 27
  | .ldVxK _ => 28
  | .ldDtVx _ => 29
  | .ldStVx _ => 30
  | .addI _ => 31
  | .ldF _ => 32
  | .ldB _ => 33
  | .ldMemVx _ => 34
  | .ldVxMem _ => 35

end Sys2Proof
end

