-- ==== Sys2Proof/Machine/Control.lean ====
section
/-! DEFINITION. Control transfer (40_control.md): NOP, RET, JP, CALL, JP V0. `PC` has been advanced by the fetch. -/

namespace Sys2Proof.Machine

/-- R100: nothing. -/
def execNop (s : State) : Host.Outcome State Fault Refusal := .next s

/-- R101: pop the return address into `PC`, or the stack fault of an empty stack. -/
def execRet (s : State) : Host.Outcome State Fault Refusal :=
  match s.pop with
  | some (target, t) => .next (t.setPc target)
  | none => .next (s.takeFault .stackUnderflow (encode .ret) 0)

/-- R102: `PC <- nnn`. -/
def execJp (nnn : Imm12) (s : State) : Host.Outcome State Fault Refusal := .next (s.setPc (immAddr nnn))

/-- R103: push the advanced `PC`, then `PC <- nnn`, or the stack fault of a full stack. -/
def execCall (nnn : Imm12) (s : State) : Host.Outcome State Fault Refusal :=
  match s.push s.pc with
  | some t => .next (t.setPc (immAddr nnn))
  | none => .next (s.takeFault .stackOverflow (encode (.call nnn)) 0)

/-- R104: `PC <- V[0] + nnn`; the register is `V[0]` whatever `d2` holds. -/
def execJpV0 (nnn : Imm12) (s : State) : Host.Outcome State Fault Refusal :=
  .next (s.setPc (indexedTarget (s.reg 0) nnn))

end Sys2Proof.Machine
end

