-- ==== Sys2Proof/Machine/Display.lean ====
section
/-! DEFINITION. Display instructions (45_display.md): CLS and the XOR sprite blitter DRW, as the loops of R161. The
loops carry the framebuffer and the collision seen so far. -/

namespace Sys2Proof.Machine

/-- R160: every cell 0; `VF` is not written. -/
def execCls (s : State) : Host.Outcome State Fault Refusal := .next { s with fb := clearFb }

/-- One sprite pixel that is 1: note a collision if the cell is set, then XOR it (R161). -/
def drawPixel (px : Fin 64) (py : Fin 32) (acc : Framebuffer × Bool) : Framebuffer × Bool :=
  (togglePixel acc.1 px py, acc.2 || pixel acc.1 px py)

/-- Sprite column `c` of a row byte `b`: bit `7 - c`, so bit 7 is the leftmost pixel (R161; log entry 4). -/
def spriteBit (b : Byte) (c : Nat) : Bool := b.getLsbD (7 - c)

/-- The first `k` sprite columns of one row, left to right, both coordinates wrapped (R161). -/
def drawColumns (cx cy : Nat) (b : Byte) : Nat → Framebuffer × Bool → Framebuffer × Bool
  | 0, acc => acc
  | c + 1, acc =>
    if spriteBit b c then drawPixel (Fin.ofNat 64 (cx + c)) (Fin.ofNat 32 cy) (drawColumns cx cy b c acc)
    else drawColumns cx cy b c acc

/-- The sprite rows `bs`, the first at row `cy`, top to bottom (R161). -/
def drawRows (cx cy : Nat) : List Byte → Framebuffer × Bool → Framebuffer × Bool
  | [], acc => acc
  | b :: bs, acc => drawRows cx (cy + 1) bs (drawColumns cx cy b 8 acc)

/-- R161: XOR the `n` sprite rows at `I` into the framebuffer at (`V[x]`, `V[y]`), `VF` = collision, or the data
addressing fault. -/
def execDrw (x y : Reg) (n : Nat) (s : State) : Host.Outcome State Fault Refusal :=
  match s.memRead s.i.toNat n with
  | some rows =>
    let drawn := drawRows (s.reg x).toNat (s.reg y).toNat rows (s.fb, false)
    .next (({ s with fb := drawn.1 } : State).setFlag drawn.2)
  | none => .next (s.takeFault .addrData (encode (.drw x y n)) (addrInfo s.i))

end Sys2Proof.Machine
end

