-- ==== Sys2Proof/Machine/IndexMemory.lean ====
section
/-! DEFINITION. Index register and memory instructions (44_index_memory.md): LD I, ADD I, LD F, LD B, LD [I],
LD Vx,[I]. A memory-indexed instruction checks its whole range before its first write and leaves `I` as it was
(R156). -/

namespace Sys2Proof.Machine

/-- R150: `I <- nnn`. -/
def execLdI (nnn : Imm12) (s : State) : Host.Outcome State Fault Refusal := .next (s.setI (immAddr nnn))

/-- R151: `I <- (I + V[x]) mod 65536`; no flag, no fault. -/
def execAddI (x : Reg) (s : State) : Host.Outcome State Fault Refusal := .next (s.setI (indexPlus s.i (s.reg x)))

/-- R152: `I <- V[x] * 5`. -/
def execLdF (x : Reg) (s : State) : Host.Outcome State Fault Refusal := .next (s.setI (glyphAddr (s.reg x)))

/-- R153: the decimal digits of `V[x]` to `I`, `I+1`, `I+2`, or the data addressing fault. -/
def execLdB (x : Reg) (s : State) : Host.Outcome State Fault Refusal :=
  match s.memWrite s.i.toNat (bcdDigits (s.reg x)) with
  | some t => .next t
  | none => .next (s.takeFault .addrData (encode (.ldB x)) (addrInfo s.i))

/-- R154: `V[0..x]` to memory at `I`, or the data addressing fault. -/
def execLdMemVx (x : Reg) (s : State) : Host.Outcome State Fault Refusal :=
  match s.memWrite s.i.toNat (s.regsUpTo x) with
  | some t => .next t
  | none => .next (s.takeFault .addrData (encode (.ldMemVx x)) (addrInfo s.i))

/-- R155: `V[0..x]` from memory at `I`, or the data addressing fault. -/
def execLdVxMem (x : Reg) (s : State) : Host.Outcome State Fault Refusal :=
  match s.memRead s.i.toNat (blockLength x) with
  | some bs => .next { s with v := fillRegs s.v 0 bs }
  | none => .next (s.takeFault .addrData (encode (.ldVxMem x)) (addrInfo s.i))

end Sys2Proof.Machine
end

