-- ==== Sys2Proof/Machine/KeysTimers.lean ====
section
/-! DEFINITION. Key and timer instructions (46_keys_timers.md): SKP, SKNP, LD Vx,K, LD Vx,DT, LD DT,Vx, LD ST,Vx. -/

namespace Sys2Proof.Machine

/-- R170: skip if key `V[x]` is pressed, or the key-index fault. -/
def execSkp (x : Reg) (s : State) : Host.Outcome State Fault Refusal :=
  match keyOperand (s.reg x) with
  | some k => .next (s.skipIf (s.key k))
  | none => .next (s.takeFault .keyIndex (encode (.skp x)) (zext16 (s.reg x)))

/-- R171: skip if key `V[x]` is not pressed, or the key-index fault. -/
def execSknp (x : Reg) (s : State) : Host.Outcome State Fault Refusal :=
  match keyOperand (s.reg x) with
  | some k => .next (s.skipIf (!s.key k))
  | none => .next (s.takeFault .keyIndex (encode (.sknp x)) (zext16 (s.reg x)))

/-- R172: the least pressed key to `V[x]`, or `PC` back to this instruction. -/
def execLdVxK (x : Reg) (s : State) : Host.Outcome State Fault Refusal :=
  match s.lowestPressed with
  | some k => .next (s.setReg x (BitVec.ofNat 8 k.val))
  | none => .next (s.setPc (s.pc - 2))

/-- R173: `V[x] <- DT`. -/
def execLdVxDt (x : Reg) (s : State) : Host.Outcome State Fault Refusal := .next (s.setReg x s.dt)

/-- R174: `DT <- V[x]`. -/
def execLdDtVx (x : Reg) (s : State) : Host.Outcome State Fault Refusal := .next (s.setDt (s.reg x))

/-- R175: `ST <- V[x]`. -/
def execLdStVx (x : Reg) (s : State) : Host.Outcome State Fault Refusal := .next (s.setSt (s.reg x))

end Sys2Proof.Machine
end

