-- ==== Sys2Proof/Machine/Step.lean ====
section
/-! DEFINITION. The host operation `STEP` (50_host_interface.md R183): fetch, advance `PC`, decode, execute. -/

namespace Sys2Proof.Machine

/-- `STEP` (R183). A faulted core does nothing (R210); a fetch or decode that fails is recorded as its fault
(R201, R203); else the instruction is executed with `PC` already advanced. -/
def step (s : State) : Host.Outcome State Fault Refusal :=
  if s.faulted then .next s
  else
    match s.fetch with
    | none => .next s.fetchFault
    | some ir =>
      match decode ir with
      | .ok i => exec i s.advance
      | .error _ => .next (s.decodeFault ir)

/-- `s` with the instruction of opcode_table.json whose bits are `w` stored where the next step fetches it
(log entry 25). -/
def State.withFetchWord (s : State) (nbits w : Nat) : State := s.placeWord (tableWord nbits w)

end Sys2Proof.Machine
end

