-- ==== Sys2Proof/Machine/HostOps.lean ====
section
/-! DEFINITION. The host operations other than `STEP` (50_host_interface.md R180 to R192), the timer tick and the
outputs (60_exceptions.md R217, R218), and runs of operations in any order (R10, R190). -/

namespace Sys2Proof.Machine

/-- One timer under a tick: down by one, saturating at 0 (R217). -/
def countDown (b : Byte) : Byte := if b = 0 then 0 else b - 1

/-- `TICK` (R217). -/
def State.tick (s : State) : State := { s with dt := countDown s.dt, st := countDown s.st }

/-- `SET_KEY(k, p)` (R186); an index outside 0..15 cannot be written. -/
def State.setKey (s : State) (k : KeyIndex) (p : Bool) : State := { s with keys := s.keys.set k.val p k.isLt }

/-- The image fits between the load address and the end of memory (R187). -/
def imageFits (image : List Byte) : Bool := decide (image.length ≤ Config.maxImage)

/-- `LOAD(bytes)` (R187): the image copied to 0x200 upward; none where it is rejected whole (R188). -/
def State.load (s : State) (image : List Byte) : Option State :=
  if imageFits image then some (s.putBytes Config.base image) else none

/-- `DISPLAY` (R189): the framebuffer, read only. -/
def State.display (s : State) : Framebuffer := s.fb

/-- `snd_active` (R218): the level `ST != 0`. -/
def State.sndActive (s : State) : Bool := decide (s.st ≠ 0)

/-- `tone_pulse` of a `TICK` issued in state `s` (R218): `ST` before the decrement is exactly 1. -/
def State.tickPulse (s : State) : Bool := decide (s.st = 1)

/-- The six host operations (R10, R180); power-on has the effect of `RESET`. -/
inductive HostOp where
  /-- `RESET` (R185) -/
  | reset
  /-- `LOAD(bytes)` (R187) -/
  | load (image : List Byte)
  /-- `STEP` (R183) -/
  | step
  /-- `TICK` (R184, R217) -/
  | tick
  /-- `SET_KEY(k, p)` (R186) -/
  | setKey (k : KeyIndex) (p : Bool)
  /-- `DISPLAY` (R189) -/
  | display
  deriving DecidableEq, Repr

/-- One host operation. All but `STEP` act alike on a faulted and an unfaulted core (R212); a rejected `LOAD` leaves
the state as it was (R188). -/
def hostOp (op : HostOp) (s : State) : Host.Outcome State Fault Refusal :=
  match op with
  | .reset => .next s.hostReset
  | .load image => .next ((s.load image).getD s)
  | .step => step s
  | .tick => .next s.tick
  | .setKey k p => .next (s.setKey k p)
  | .display => .next s

/-- The operation is a `LOAD` that is rejected (`ld_err`, R188). -/
def loadRejected : HostOp → Bool
  | .load image => !imageFits image
  | .reset => false
  | .step => false
  | .tick => false
  | .setKey _ _ => false
  | .display => false

/-- `tone_pulse` during an operation (R218): only a `TICK` raises it. -/
def tonePulse (op : HostOp) (s : State) : Bool :=
  match op with
  | .tick => s.tickPulse
  | .reset => false
  | .load _ => false
  | .step => false
  | .setKey _ _ => false
  | .display => false

/-- A sequence of host operations, in order (R10): any operations, any number, any interleaving (R190). -/
def runOps : List HostOp → State → Host.Outcome State Fault Refusal
  | [], s => .next s
  | op :: ops, s =>
    match hostOp op s with
    | .next t => runOps ops t
    | .fault f => .fault f
    | .refused r => .refused r

/-- The outputs that are functions of the state (R39, R181). -/
structure Outputs where
  fb : Framebuffer
  pc : Word
  dt : Byte
  st : Byte
  sndActive : Bool
  faulted : Bool
  faultCause : BitVec 3
  faultIr : Word
  faultInfo : Word
  deriving DecidableEq, Repr

/-- R181: what the host sees of a state. -/
def State.outputs (s : State) : Outputs where
  fb := s.display
  pc := s.pc
  dt := s.dt
  st := s.st
  sndActive := s.sndActive
  faulted := s.faulted
  faultCause := causeCode s.faultCause
  faultIr := s.faultIr
  faultInfo := s.faultInfo

end Sys2Proof.Machine
end

