-- ==== Sys2Proof/Machine/Ports.lean ====
section
/-! DEFINITION. The signal level of the host interface (50_host_interface.md R181, R182, and the signal-level
sentences of R187 and R188): one clock edge at a time. It is one realisation of the transaction level, which is
normative (log entry 26). The input `rnd` is the free value the step draws (log entry 1). -/

namespace Sys2Proof.Machine

/-- The inputs sampled on a rising edge of `clk` (R181). -/
structure Pins where
  rst : Bool
  cmdValid : Bool
  cmd : BitVec 3
  keyIndex : BitVec 4
  keyPressed : Bool
  ldLen : BitVec 13
  ldData : Byte
  deriving DecidableEq, Repr

/-- An open `LOAD` burst: the offset the next image byte goes to, and how many are still to come (R187). -/
structure Burst where
  offset : Nat
  left : Nat
  deriving DecidableEq, Repr

/-- The core with what its ports hold between clock edges: the burst in progress, and the two outputs that are high
for one cycle. -/
structure PortState where
  core : State
  burst : Option Burst
  tonePulse : Bool
  ldErr : Bool
  deriving DecidableEq, Repr

/-- The ports after reset. -/
def PortState.reset : PortState := ⟨State.reset, none, false, false⟩

/-- The commands of `cmd` (R181). -/
inductive Command where
  | idle
  | step
  | tick
  | setKey
  | loadBegin
  | loadData
  deriving DecidableEq, Repr

/-- The command presented: codes 6 and 7, and no valid command, are `IDLE` (R181). -/
def command (p : Pins) : Command :=
  if p.cmdValid then
    match p.cmd.toNat with
    | 1 => .step
    | 2 => .tick
    | 3 => .setKey
    | 4 => .loadBegin
    | 5 => .loadData
    | _ => .idle
  else .idle

/-- The next state where the outcome is one, with the ports quiet. -/
def settlePorts (o : Host.Outcome State Fault Refusal) (pulse : Bool) : Host.Outcome PortState Fault Refusal :=
  match o with
  | .next t => .next ⟨t, none, pulse, false⟩
  | .fault f => .fault f
  | .refused r => .refused r

/-- `LOAD_BEGIN` outside a burst: a length above 3584 raises `ld_err` and opens no burst (R188); a length of 0 has no
byte to wait for. -/
def loadBegin (len : Nat) (s : State) : PortState :=
  if len ≤ Config.maxImage then ⟨s, if len = 0 then none else some ⟨0, len⟩, false, false⟩
  else ⟨s, none, false, true⟩

/-- `LOAD_DATA` in a burst: the byte goes to the next address of the image, and the last one closes the burst. -/
def loadData (b : Byte) (u : Burst) (s : State) : PortState :=
  ⟨s.putBytes (Config.base + u.offset) [b],
    if u.left ≤ 1 then none else some ⟨u.offset + 1, u.left - 1⟩, false, false⟩

/-- A command outside a burst; `LOAD_DATA` there is ignored (R188). -/
def edgeFree (p : Pins) (s : State) : Host.Outcome PortState Fault Refusal :=
  match command p with
  | .idle => .next ⟨s, none, false, false⟩
  | .step => settlePorts (step s) false
  | .tick => settlePorts (.next s.tick) s.tickPulse
  | .setKey => settlePorts (.next (s.setKey ⟨p.keyIndex.toNat, p.keyIndex.isLt⟩ p.keyPressed)) false
  | .loadBegin => .next (loadBegin p.ldLen.toNat s)
  | .loadData => .next ⟨s, none, false, false⟩

/-- A command inside a burst: only `LOAD_DATA` and `IDLE` may be presented (R182); the model gives anything else no
move (R191 d). -/
def edgeBurst (p : Pins) (u : Burst) (s : State) : Host.Outcome PortState Fault Refusal :=
  match command p with
  | .idle => .next ⟨s, some u, false, false⟩
  | .loadData => .next (loadData p.ldData u s)
  | .step => .refused .commandInBurst
  | .tick => .refused .commandInBurst
  | .setKey => .refused .commandInBurst
  | .loadBegin => .refused .commandInBurst

/-- One rising edge of `clk`: `rst` wins over any command (R181, R182). -/
def edge (p : Pins) (q : PortState) : Host.Outcome PortState Fault Refusal :=
  if p.rst then .next ⟨q.core.hostReset, none, false, false⟩
  else
    match q.burst with
    | none => edgeFree p q.core
    | some u => edgeBurst p u q.core

/-- A sequence of clock edges. -/
def runEdges : List Pins → PortState → Host.Outcome PortState Fault Refusal
  | [], q => .next q
  | p :: ps, q =>
    match edge p q with
    | .next r => runEdges ps r
    | .fault f => .fault f
    | .refused r => .refused r

/-- The pins that present `LOAD_BEGIN` with a length, modulo 8192 on the 13-bit `ld_len` (log entry 35). -/
def pinsLoadBegin (len : Nat) : Pins := ⟨false, true, 4, 0, false, BitVec.ofNat 13 len, 0⟩

/-- The pins that present `LOAD_DATA` with a byte. -/
def pinsLoadData (b : Byte) : Pins := ⟨false, true, 5, 0, false, 0, b⟩

/-- The whole burst of an image (R187): its length, then its bytes in order. For an image of at most 8191 bytes; a longer
one has no length on the 13-bit `ld_len`, the spec gives it no signal-level form, and announcing its length modulo 8192
here is the model's choice (DESIGN CHOICE, unsafe; log entry 35). -/
def loadBurst (image : List Byte) : List Pins := pinsLoadBegin image.length :: image.map pinsLoadData

end Sys2Proof.Machine
end

