-- ==== Sys2Proof/Safety.lean ====
section
/-! DEFINITION. What counts as a sound state and a safe run, in the terms the statements use: the invariant of the
core, the access matrix of 10_state.md R38, and the end of a run (70_reset_and_hazards.md R241). -/

namespace Sys2Proof.Machine

/-- The invariant of the core: memory in its canonical form, `PC` never past the largest value R24 lists (0x10FE), every
stack slot a formerly advanced `PC` (at most 4096, R24), and a clear fault record while the core is not faulted
(R200, R204). -/
structure Inv (s : State) : Prop where
  mem_wf : s.memWf = true
  pc_le : s.pc.toNat ≤ 0x10FE
  stack_le : ∀ k : Fin 16, s.stack[k].toNat ≤ 4096
  record_clear : s.faultCause = .noFault → s.faultIr = 0 ∧ s.faultInfo = 0

/-- The pieces of state the access matrix R38 speaks of, a register and a stack slot each by its number. -/
inductive Piece where
  | pc
  | v (r : Reg)
  | i
  | stack (k : Fin 16)
  | sp
  | dt
  | st
  | keys
  | fb
  | mem
  deriving DecidableEq, Repr

/-- The piece holds the same value in both states. -/
def Piece.same (p : Piece) (s t : State) : Prop :=
  match p with
  | .pc => t.pc = s.pc
  | .v r => t.reg r = s.reg r
  | .i => t.i = s.i
  | .stack k => t.stack[k] = s.stack[k]
  | .sp => t.sp = s.sp
  | .dt => t.dt = s.dt
  | .st => t.st = s.st
  | .keys => t.keys = s.keys
  | .fb => t.fb = s.fb
  | .mem => t.mem = s.mem

/-- The column "writes" of R38, for the execute phase of an instruction started in state `s` (which only says which
stack slot a call writes): true where the instruction may change the piece. -/
def mayWrite (i : Instr) (s : State) (p : Piece) : Bool :=
  match i with
  | .nop => false
  | .cls => p == .fb
  | .ret => p == .sp || p == .pc
  | .jp _ => p == .pc
  | .call _ => p == .sp || p == .pc || (match p with | .stack k => k.val == s.sp.val | _ => false)
  | .seImm _ _ => p == .pc
  | .sneImm _ _ => p == .pc
  | .seReg _ _ => p == .pc
  | .ldImm x _ => p == .v x
  | .addImm x _ => p == .v x
  | .ldReg x _ => p == .v x
  | .or x _ => p == .v x
  | .and x _ => p == .v x
  | .xor x _ => p == .v x
  | .add x _ => p == .v x || p == .v VF
  | .sub x _ => p == .v x || p == .v VF
  | .shr x _ => p == .v x || p == .v VF
  | .subn x _ => p == .v x || p == .v VF
  | .shl x _ => p == .v x || p == .v VF
  | .sneReg _ _ => p == .pc
  | .ldI _ => p == .i
  | .jpV0 _ => p == .pc
  | .rnd x _ => p == .v x
  | .drw _ _ _ => p == .fb || p == .v VF
  | .skp _ => p == .pc
  | .sknp _ => p == .pc
  | .ldVxDt x => p == .v x
  | .ldVxK x => p == .v x || p == .pc
  | .ldDtVx _ => p == .dt
  | .ldStVx _ => p == .st
  | .addI _ => p == .i
  | .ldF _ => p == .i
  | .ldB _ => p == .mem
  | .ldMemVx _ => p == .mem
  | .ldVxMem x => match p with | .v r => decide (r.val ≤ x.val) | _ => false

/-- The one fault an instruction can raise in its execute phase, if any (R207). -/
def executeFault : Instr → Option FaultCause
  | .ret => some .stackUnderflow
  | .call _ => some .stackOverflow
  | .drw _ _ _ => some .addrData
  | .skp _ => some .keyIndex
  | .sknp _ => some .keyIndex
  | .ldB _ => some .addrData
  | .ldMemVx _ => some .addrData
  | .ldVxMem _ => some .addrData
  | .nop => none
  | .cls => none
  | .jp _ => none
  | .seImm _ _ => none
  | .sneImm _ _ => none
  | .seReg _ _ => none
  | .ldImm _ _ => none
  | .addImm _ _ => none
  | .ldReg _ _ => none
  | .or _ _ => none
  | .and _ _ => none
  | .xor _ _ => none
  | .add _ _ => none
  | .sub _ _ => none
  | .shr _ _ => none
  | .subn _ _ => none
  | .shl _ _ => none
  | .sneReg _ _ => none
  | .ldI _ => none
  | .jpV0 _ => none
  | .rnd _ _ => none
  | .ldVxDt _ => none
  | .ldVxK _ => none
  | .ldDtVx _ => none
  | .ldStVx _ => none
  | .addI _ => none
  | .ldF _ => none

/-- How many bytes at `I` upward an instruction accesses (R156). -/
def indexedBytes : Instr → Nat
  | .drw _ _ n => n
  | .ldB _ => 3
  | .ldMemVx x => x.val + 1
  | .ldVxMem x => x.val + 1
  | .add _ _ => 0
  | .sub _ _ => 0
  | .shr _ _ => 0
  | .subn _ _ => 0
  | .shl _ _ => 0
  | .nop => 0
  | .cls => 0
  | .ret => 0
  | .jp _ => 0
  | .call _ => 0
  | .seImm _ _ => 0
  | .sneImm _ _ => 0
  | .seReg _ _ => 0
  | .ldImm _ _ => 0
  | .addImm _ _ => 0
  | .ldReg _ _ => 0
  | .or _ _ => 0
  | .and _ _ => 0
  | .xor _ _ => 0
  | .sneReg _ _ => 0
  | .ldI _ => 0
  | .jpV0 _ => 0
  | .rnd _ _ => 0
  | .skp _ => 0
  | .sknp _ => 0
  | .ldVxDt _ => 0
  | .ldVxK _ => 0
  | .ldDtVx _ => 0
  | .ldStVx _ => 0
  | .addI _ => 0
  | .ldF _ => 0

/-- The six instructions that write `VF` as a flag (R22). -/
def writesFlag : Instr → Bool
  | .add _ _ => true
  | .sub _ _ => true
  | .shr _ _ => true
  | .subn _ _ => true
  | .shl _ _ => true
  | .drw _ _ _ => true
  | .nop => false
  | .cls => false
  | .ret => false
  | .jp _ => false
  | .call _ => false
  | .seImm _ _ => false
  | .sneImm _ _ => false
  | .seReg _ _ => false
  | .ldImm _ _ => false
  | .addImm _ _ => false
  | .ldReg _ _ => false
  | .or _ _ => false
  | .and _ _ => false
  | .xor _ _ => false
  | .sneReg _ _ => false
  | .ldI _ => false
  | .jpV0 _ => false
  | .rnd _ _ => false
  | .skp _ => false
  | .sknp _ => false
  | .ldVxDt _ => false
  | .ldVxK _ => false
  | .ldDtVx _ => false
  | .ldStVx _ => false
  | .addI _ => false
  | .ldF _ => false
  | .ldB _ => false
  | .ldMemVx _ => false
  | .ldVxMem _ => false

/-- The spec's convention for the end of a run (R241, D20): not faulted, and the instruction at `PC` is `1nnn` with
`nnn` = `PC`. It is no state of the hardware, which goes on stepping the jump. -/
def State.runEnded (s : State) : Bool :=
  !s.faulted &&
    match s.fetch with
    | some ir =>
      match decode ir with
      | .ok (.jp nnn) => decide (zext16 nnn = s.pc)
      | _ => false
    | none => false

end Sys2Proof.Machine
end

