-- ==== Sys2Proof/Certificates/Slice0/Obligations.lean ====
section
/-! DEFINITION. The statements for the provers. Where a statement rests on a decision the spec marks as its own (D<n> of
92_eei_decisions.md) or on a choice of the model, its docstring says so and names the log entry. -/

open Sys2Proof Sys2Proof.Machine

/-! ### Encoding -/

/-- 30_encoding.md R72, R73, R75: decoding the word the encoder writes gives the instruction back, every operand at
every value of its field. That the two shifts keep their ignored `y` as an operand is the model's choice (log entry 27).
-/
def Obligations.DecodeOfEncodeGivesBack : Prop :=
  ∀ i : Instr, i.wellFormed = true → decode (encode i) = .ok i

/-- R72, R77: a legal word is the encoding of what it decodes to, so no bit of it is dropped, and what it decodes to is
well formed (R82). For the two shifts, whose 16 values of `y` are the same instruction (R78), this holds because the
syntax keeps the ignored `y`, which is the model's choice (log entry 27). -/
def Obligations.EncodeOfDecodeGivesBack : Prop :=
  ∀ (ir : Word) (i : Instr), decode ir = .ok i → encode i = ir ∧ i.wellFormed = true

/-- R75 to R77: a word that decodes matches the row of the opcode map of its instruction and no other row, and a word
that is rejected matches no row. -/
def Obligations.DecodeFollowsOpcodeMap : Prop :=
  ∀ ir : Word,
    match decode ir with
    | .ok i =>
      (∃ row, row ∈ opcodeMap ∧ row.number = rowNumber i ∧ rowMatches row ir = true) ∧
      ∀ row, row ∈ opcodeMap → rowMatches row ir = true → row.number = rowNumber i
    | .error _ => ∀ row, row ∈ opcodeMap → rowMatches row ir = false

/-- 95_test_vectors.md 2.8: words written out from the spec's encodings, legal and illegal, of every family. -/
def Obligations.DecodeOfWrittenWords : Prop :=
  decode 0x0000 = .ok .nop ∧ decode 0x00E0 = .ok .cls ∧ decode 0x00EE = .ok .ret ∧ decode 0x0EEE = .error .illegal0 ∧
  decode 0x5120 = .ok (.seReg 1 2) ∧ decode 0x5121 = .error .illegal5 ∧
  decode 0x8127 = .ok (.subn 1 2) ∧ decode 0x8128 = .error .illegal8 ∧
  decode 0x9120 = .ok (.sneReg 1 2) ∧ decode 0x9121 = .error .illegal9 ∧
  decode 0xBFFF = .ok (.jpV0 0xFFF) ∧ decode 0xD012 = .ok (.drw 0 1 2) ∧
  decode 0xEF9E = .ok (.skp 15) ∧ decode 0xE1A0 = .error .illegalE ∧
  decode 0xF165 = .ok (.ldVxMem 1) ∧ decode 0xF175 = .error .illegalF

/-! ### The step -/

/-- 20_memory.md R56, R57, 50_host_interface.md R183: when the two bytes at `PC`, high byte first, decode to an
instruction, the step of an unfaulted core is that instruction executed with `PC` already advanced by 2. -/
def Obligations.StepRunsDecodedInstruction : Prop :=
  ∀ (s : State) (i : Instr), s.faulted = false → s.pc.toNat ≤ 4094 →
    decode (s.byteAt s.pc.toNat ++ s.byteAt (s.pc.toNat + 1)) = .ok i →
    step s = exec i { s with pc := s.pc + 2 }

/-- R56, 60_exceptions.md R201: a fetch that would read past address 4095 faults and leaves `PC` alone. The record is
the spec's decisions D10 and D11 (log entries 6, 7). -/
def Obligations.FetchPastTheEndFaults : Prop :=
  ∀ s : State, s.faulted = false → 4095 ≤ s.pc.toNat →
    ∃ t, step s = .next t ∧ t = { s with faultCause := .addrFetch, faultIr := 0, faultInfo := t.faultInfo } ∧
      t.faultInfo.toNat = max s.pc.toNat 4096

/-- 30_encoding.md R77, 60_exceptions.md R203: an illegal word faults with the word in the record and `PC` advanced,
and has no other effect. The record is the spec's decisions D10 and D11 (log entries 6, 7). -/
def Obligations.IllegalWordFaults : Prop :=
  ∀ (s : State) (r : Reject), s.faulted = false → s.pc.toNat ≤ 4094 →
    decode (s.byteAt s.pc.toNat ++ s.byteAt (s.pc.toNat + 1)) = .error r →
    step s = .next { s with
      pc := s.pc + 2
      faultCause := .decode
      faultIr := s.byteAt s.pc.toNat ++ s.byteAt (s.pc.toNat + 1)
      faultInfo := 0 }

/-- 60_exceptions.md R210, R212: a step of a faulted core has no effect, and of the host's operations only `RESET`
clears the fault record (the spec's decision D12, log entry 8). That `RESET` clears the record is the spec's decision D9
(log entry 5), and that `LOAD` leaves it alone its decision D18 (log entry 16). -/
def Obligations.OnlyResetClearsAFault : Prop :=
  ∀ (s t : State) (op : HostOp), s.faulted = true → hostOp op s = .next t →
    (op = .step → t = s) ∧ (op = .reset → t.faulted = false) ∧
    (op ≠ .reset →
      t.faultCause = s.faultCause ∧ t.faultIr = s.faultIr ∧ t.faultInfo = s.faultInfo ∧ t.pc = s.pc)

/-- R183, R208, R210: a step always ends, in a next state; neither a fault nor a refusal of the model stops it. That a
fault of the spec is a next state is the model's form (log entry 6), and that a faulted core still answers is the spec's
decision D12 (log entry 8). -/
def Obligations.StepAlwaysAnswersNext : Prop := ∀ s : State, ∃ t, step s = .next t

/-- R200, R201, R204, R207, R208: a step that faults has had no effect but the fetch's advance of `PC` (none for a fetch
fault) and the record, and the record holds the word at `PC` (0 for a fetch fault) and the detail of its cause, whose
condition held: an execute fault is that of the decoded instruction (R207), and a data addressing fault's last address,
computed without wrapping, is 4096 or more (R156). The record, the state after a fault, the one fault a step and the
fault of a key number are the spec's decisions D10, D11, D13 and D8 (log entries 6, 7, 11, 13). -/
def Obligations.FaultsArePrecise : Prop :=
  ∀ s t : State, s.faulted = false → step s = .next t → t.faulted = true →
    t = { s with
      pc := t.pc, faultCause := t.faultCause, faultIr := t.faultIr, faultInfo := t.faultInfo } ∧
    (4095 ≤ s.pc.toNat →
      t.faultCause = .addrFetch ∧ t.pc = s.pc ∧ t.faultIr = 0 ∧ t.faultInfo.toNat = max s.pc.toNat 4096) ∧
    (s.pc.toNat ≤ 4094 →
      t.faultCause ≠ .addrFetch ∧ t.pc = s.pc + 2 ∧
      t.faultIr = s.byteAt s.pc.toNat ++ s.byteAt (s.pc.toNat + 1) ∧
      (t.faultCause ≠ .decode → ∃ i, decode t.faultIr = .ok i ∧ executeFault i = some t.faultCause ∧
        (t.faultCause = .addrData →
          0 < indexedBytes i ∧ 4096 ≤ s.i.toNat + indexedBytes i - 1 ∧ t.faultInfo.toNat = max s.i.toNat 4096)) ∧
      (t.faultCause = .keyIndex →
        t.faultInfo = zext16 (s.reg (fieldX t.faultIr)) ∧ 16 ≤ (s.reg (fieldX t.faultIr)).toNat) ∧
      (t.faultCause = .stackOverflow → t.faultInfo = 0 ∧ s.sp.val = 16) ∧
      (t.faultCause = .stackUnderflow → t.faultInfo = 0 ∧ s.sp.val = 0) ∧
      (t.faultCause = .decode → t.faultInfo = 0 ∧ ∃ r, decode t.faultIr = .error r))

/-- R207: the execute phase of an instruction raises no fault but the one its row gives it, and of 27 instructions none
(the spec's decision D13, log entry 6; the fault of a key number is its decision D8, log entry 11). R200, R204, R208:
then nothing but the record changes, and it holds the instruction's word (the spec's decisions D10 and D11, log entries
6, 7, 13). -/
def Obligations.ExecuteRaisesOnlyItsOwnFault : Prop :=
  ∀ (i : Instr) (s t : State), exec i s = .next t →
    (t.faultCause = s.faultCause ∧ t.faultIr = s.faultIr ∧ t.faultInfo = s.faultInfo) ∨
    (executeFault i = some t.faultCause ∧ t = s.takeFault t.faultCause (encode i) t.faultInfo)

/-! ### Whole-machine rules -/

/-- R24, R200, R204, R208: every step keeps the invariant of the core. The canonical form of memory is the model's own
(log entry 28). The bound of `PC` takes in `Bnnn`'s unreduced sum and the stack's slots hold advanced `PC`s by the
spec's decisions D24 and D15 (log entries 19, 14); the record, the `PC` after a fault and the step of a faulted core are
its decisions D10, D11 and D12 (log entries 6, 7, 8). -/
def Obligations.StepKeepsInvariant : Prop := ∀ s t : State, Inv s → step s = .next t → Inv t

/-- R36, R53: the state after reset meets the invariant, whatever the glyph table of the core. That memory is in
canonical form is the model's own (log entry 28), and that the fault record is clear after reset is the spec's
decision D9 (log entry 5). -/
def Obligations.ResetMeetsInvariant : Prop := Inv State.reset ∧ ∀ g : GlyphTable, Inv (State.resetWith g)

/-- R10, R24, R36, R185, R190, R200, R204: every sequence of host operations, in any interleaving, keeps the invariant
of the core. The canonical form of memory is the model's own (log entry 28). That `RESET` clears the record is the
spec's decision D9 (log entry 5); whole operations in sequence are its decision D2 (log entry 23), what `LOAD` writes
its decision D18 (log entry 16), and for a step see StepKeepsInvariant (decisions D10, D11, D12, D15, D24; log entries
6, 7, 8, 14, 19). -/
def Obligations.EveryInterleavingKeepsInvariant : Prop :=
  ∀ (ops : List HostOp) (s t : State), Inv s → runOps ops s = .next t → Inv t

/-- R38: an instruction changes no piece of state outside its row of the access matrix: registers, `I`, stack slots,
`SP`, timers, keys, framebuffer, memory and `PC`. Of what the matrix so excludes, the spec's own decisions are: `I`
after the memory-indexed instructions (D14, log entry 12), `VF` after `8xy1` to `8xy3` (D23, log entry 18) and after
`Fx1E` (D26, log entry 21), every slot but `STACK[SP]` after a call and every slot after a return (D15, log entry 14),
and everything after a fault (D11, log entries 7, 13). `MEM` and `FB` are whole pieces here; single bytes and cells are
in BcdStoresTheDigits, BlockStore and DrawFlipsTheSpriteMask. -/
def Obligations.AccessMatrixIsRespected : Prop :=
  ∀ (i : Instr) (s t : State) (p : Piece), exec i s = .next t → mayWrite i s p = false → p.same s t

/-- R22: what a flag-writing instruction that does not fault leaves in `VF` is 0x00 or 0x01, also where `VF` is its
destination (the spec's decision D6, log entry 9) and where a sprite has no rows (its decision D25, log entry 20). -/
def Obligations.FlagWritesAreZeroOrOne : Prop :=
  ∀ (i : Instr) (s t : State), writesFlag i = true → s.faulted = false → exec i s = .next t → t.faulted = false →
    t.reg VF = 0 ∨ t.reg VF = 1

/-- R35, 95_test_vectors.md 1.1: no randomness is hidden in any instruction but `Cxnn`: the others do the same whatever
has been drawn before, and draw nothing. That the byte is a free draw is the spec's decision D3; the counter of draws is
the model's own field (log entry 1). -/
def Obligations.OnlyRndDrawsARandomByte : Prop :=
  ∀ (i : Instr) (s t : State) (n : Nat), (∀ x nn, i ≠ .rnd x nn) → exec i s = .next t →
    t.draws = s.draws ∧ exec i { s with draws := n } = .next { t with draws := n }

/-- R29: no instruction reads the sound timer: with another value in `ST`, an instruction does the same to everything
but `ST`. -/
def Obligations.NoInstructionReadsTheSoundTimer : Prop :=
  ∀ (i : Instr) (s t : State) (b : Byte), exec i s = .next t →
    ∃ u, exec i { s with st := b } = .next u ∧ { u with st := t.st } = t

/-! ### Control transfer (40_control.md) -/

/-- R100, R102: `0000` does nothing beyond the fetch, no other word is the no-op, and every other word of family 0 but
`00E0` and `00EE` is illegal; `1nnn` sets `PC` to `nnn`, whatever `nnn` is. -/
def Obligations.NopAndJump : Prop :=
  (∀ ir : Word, decode ir = .ok .nop ↔ ir = 0x0000) ∧ (∀ s : State, exec .nop s = .next s) ∧
  (∀ nnn : Imm12, nnn ≠ 0x000 → nnn ≠ 0x0E0 → nnn ≠ 0x0EE → decode (0x0#4 ++ nnn) = .error .illegal0) ∧
  (∀ nnn : Imm12, decode (0x1#4 ++ nnn) = .ok (.jp nnn)) ∧
  ∀ (nnn : Imm12) (s : State), ∃ t, exec (.jp nnn) s = .next t ∧ t = { s with pc := t.pc } ∧ t.pc.toNat = nnn.toNat

/-- R104: `Bnnn` sets `PC` to the exact sum of `V[0]` and `nnn`, not reduced to 12 bits (the spec's decision D24, log
entry 19). -/
def Obligations.JumpIndexedByV0 : Prop :=
  ∀ (nnn : Imm12) (s : State), decode (0xB#4 ++ nnn) = .ok (.jpV0 nnn) ∧
    ∃ t, exec (.jpV0 nnn) s = .next t ∧ t = { s with pc := t.pc } ∧
      t.pc.toNat = (s.reg 0).toNat + nnn.toNat

/-- R26, R103: with room on the stack, `2nnn` stores the advanced `PC` in slot `STACK[SP]`, counts `SP` up, jumps to
`nnn` and changes nothing else. Which slot is the spec's decision D15 (log entry 14). -/
def Obligations.CallPushesTheReturnAddress : Prop :=
  ∀ (nnn : Imm12) (s : State), s.sp.val < 16 →
    ∃ t, exec (.call nnn) s = .next t ∧ t = { s with pc := t.pc, sp := t.sp, stack := t.stack } ∧
      t.pc.toNat = nnn.toNat ∧ t.sp.val = s.sp.val + 1 ∧
      ∀ k : Fin 16, t.stack[k] = if k.val = s.sp.val then s.pc else s.stack[k]

/-- R26, R101: with an address on the stack, `00EE` counts `SP` down, takes `PC` from the slot `SP` then names, and
changes nothing else; the slot keeps its value (the spec's decision D15, log entry 14). -/
def Obligations.ReturnPopsTheReturnAddress : Prop :=
  ∀ s : State, 0 < s.sp.val →
    ∃ t, exec .ret s = .next t ∧ t = { s with pc := t.pc, sp := t.sp } ∧ t.sp.val + 1 = s.sp.val ∧
      ∀ k : Fin 16, k.val = t.sp.val → t.pc = s.stack[k]

/-- R101, R103, R202: a call on a full stack and a return on an empty one fault, with `PC` fetch-advanced and nothing
pushed or popped. The record is the spec's decisions D10 and D11 (log entries 6, 7). -/
def Obligations.StackFaults : Prop :=
  (∀ (nnn : Imm12) (s : State), s.sp.val = 16 →
    exec (.call nnn) s =
      .next { s with faultCause := .stackOverflow, faultIr := 0x2#4 ++ nnn, faultInfo := 0 }) ∧
  ∀ s : State, s.sp.val = 0 →
    exec .ret s = .next { s with faultCause := .stackUnderflow, faultIr := 0x00EE, faultInfo := 0 }

/-- R101, R103, 95_test_vectors.md 1.4: a call followed at once by a return, wherever the return stands, restores `PC`
to its value after the call instruction and `SP`, and changes nothing but the one stack slot `STACK[SP]`. Which slot
that is, is the spec's decision D15 (log entry 14). -/
def Obligations.CallThenReturnComesBack : Prop :=
  ∀ (nnn : Imm12) (s : State), s.sp.val < 16 →
    ∃ t, exec (.call nnn) s = .next t ∧
      ∀ p : Word, ∃ u, exec .ret { t with pc := p } = .next u ∧ u = { s with stack := u.stack } ∧
        ∀ k : Fin 16, k.val ≠ s.sp.val → u.stack[k] = s.stack[k]

/-! ### Skips (41_skip.md) -/

/-- R111 to R114: the four skips on registers, their words (with `d4` other than 0 illegal for the two that compare
registers) and their effect: a further 2 on `PC` when the condition holds, else nothing, and nothing else either way. -/
def Obligations.SkipsOnRegisters : Prop :=
  (∀ (x y : Reg) (nn : Byte),
    decode (0x3#4 ++ fieldOf x ++ nn) = .ok (.seImm x nn) ∧ decode (0x4#4 ++ fieldOf x ++ nn) = .ok (.sneImm x nn) ∧
    decode (0x5#4 ++ fieldOf x ++ fieldOf y ++ 0x0#4) = .ok (.seReg x y) ∧
    decode (0x9#4 ++ fieldOf x ++ fieldOf y ++ 0x0#4) = .ok (.sneReg x y)) ∧
  (∀ (x y : Reg) (k : BitVec 4), k ≠ 0 →
    decode (0x5#4 ++ fieldOf x ++ fieldOf y ++ k) = .error .illegal5 ∧
    decode (0x9#4 ++ fieldOf x ++ fieldOf y ++ k) = .error .illegal9) ∧
  ∀ (x y : Reg) (nn : Byte) (s : State),
    exec (.seImm x nn) s = .next (if s.reg x = nn then { s with pc := s.pc + 2 } else s) ∧
    exec (.sneImm x nn) s = .next (if s.reg x = nn then s else { s with pc := s.pc + 2 }) ∧
    exec (.seReg x y) s = .next (if s.reg x = s.reg y then { s with pc := s.pc + 2 } else s) ∧
    exec (.sneReg x y) s = .next (if s.reg x = s.reg y then s else { s with pc := s.pc + 2 })

/-! ### Immediates, moves and random (42_const_random.md, 43_alu.md) -/

/-- R120, R121, R131: `6xnn`, `7xnn` and `8xy0`, their words and their effect on `V[x]`, for every `x` including F; the
add wraps modulo 256; no flag is written and nothing else changes. -/
def Obligations.LoadAndAddImmediateAndMove : Prop :=
  (∀ (x y : Reg) (nn : Byte),
    decode (0x6#4 ++ fieldOf x ++ nn) = .ok (.ldImm x nn) ∧ decode (0x7#4 ++ fieldOf x ++ nn) = .ok (.addImm x nn) ∧
    decode (0x8#4 ++ fieldOf x ++ fieldOf y ++ 0x0#4) = .ok (.ldReg x y)) ∧
  (∀ (x : Reg) (nn : Byte) (s : State), ∃ t, exec (.ldImm x nn) s = .next t ∧ t = { s with v := t.v } ∧
    t.reg x = nn ∧ ∀ r, r ≠ x → t.reg r = s.reg r) ∧
  (∀ (x : Reg) (nn : Byte) (s : State), ∃ t, exec (.addImm x nn) s = .next t ∧ t = { s with v := t.v } ∧
    (t.reg x).toNat = ((s.reg x).toNat + nn.toNat) % 256 ∧ ∀ r, r ≠ x → t.reg r = s.reg r) ∧
  ∀ (x y : Reg) (s : State), ∃ t, exec (.ldReg x y) s = .next t ∧ t = { s with v := t.v } ∧
    t.reg x = s.reg y ∧ ∀ r, r ≠ x → t.reg r = s.reg r

/-- R122: `Cxnn` puts the random byte of this step, whatever it is, ANDed with `nn` into `V[x]`, so no bit outside `nn`
is set; the next `Cxnn` draws afresh. The byte is a free value (the spec's decision D3, log entry 1). -/
def Obligations.RandomByteUnderMask : Prop :=
  ∀ (x : Reg) (nn : Byte) (s : State), ∃ t, exec (.rnd x nn) s = .next t ∧
    t = { s with v := t.v, draws := s.draws + 1 } ∧ (∀ r, r ≠ x → t.reg r = s.reg r) ∧
    (∀ k, (t.reg x).getLsbD k = ((Config.rnd s.draws).getLsbD k && nn.getLsbD k)) ∧
    ∀ k, nn.getLsbD k = false → (t.reg x).getLsbD k = false

/-! ### The ALU family (43_alu.md) -/

/-- R132 to R134: OR, AND, XOR act on each bit of `V[x]` and `V[y]`, and write `VF` only where `x` is F (the spec's
decision D23, log entry 18). -/
def Obligations.LogicOperations : Prop :=
  ∀ (x y : Reg) (s : State),
    (∃ t, exec (.or x y) s = .next t ∧ t = { s with v := t.v } ∧ (∀ r, r ≠ x → t.reg r = s.reg r) ∧
      ∀ k, (t.reg x).getLsbD k = ((s.reg x).getLsbD k || (s.reg y).getLsbD k)) ∧
    (∃ t, exec (.and x y) s = .next t ∧ t = { s with v := t.v } ∧ (∀ r, r ≠ x → t.reg r = s.reg r) ∧
      ∀ k, (t.reg x).getLsbD k = ((s.reg x).getLsbD k && (s.reg y).getLsbD k)) ∧
    ∃ t, exec (.xor x y) s = .next t ∧ t = { s with v := t.v } ∧ (∀ r, r ≠ x → t.reg r = s.reg r) ∧
      ∀ k, (t.reg x).getLsbD k = ((s.reg x).getLsbD k ^^ (s.reg y).getLsbD k)

/-- R130, R135: `8xy4` leaves the sum modulo 256 in `V[x]` and the carry in `VF`; where `x` is F the carry stands (the
spec's decision D6, log entry 9). -/
def Obligations.AddWithCarry : Prop :=
  ∀ (x y : Reg) (s : State), ∃ t, exec (.add x y) s = .next t ∧ t = { s with v := t.v } ∧
    t.reg VF = (if (s.reg x).toNat + (s.reg y).toNat > 255 then 1 else 0) ∧
    (x ≠ VF → (t.reg x).toNat = ((s.reg x).toNat + (s.reg y).toNat) % 256) ∧
    ∀ r, r ≠ x → r ≠ VF → t.reg r = s.reg r

/-- R130, R136, R138: `8xy5` and `8xy7` leave the difference modulo 256 in `V[x]` and 1 in `VF` exactly when there is no
borrow; where `x` is F the flag stands, and at equality it is 1 (the spec's decisions D6 and D7, log entries 9, 10).
Which operand `8xy7` subtracts is as the rule states it, flagged in log entry 34. -/
def Obligations.SubtractWithBorrow : Prop :=
  ∀ (x y : Reg) (s : State),
    (∃ t, exec (.sub x y) s = .next t ∧ t = { s with v := t.v } ∧
      t.reg VF = (if (s.reg x).toNat ≥ (s.reg y).toNat then 1 else 0) ∧
      (x ≠ VF → ((t.reg x).toNat : Int) = ((s.reg x).toNat - (s.reg y).toNat : Int) % 256) ∧
      ∀ r, r ≠ x → r ≠ VF → t.reg r = s.reg r) ∧
    ∃ t, exec (.subn x y) s = .next t ∧ t = { s with v := t.v } ∧
      t.reg VF = (if (s.reg y).toNat ≥ (s.reg x).toNat then 1 else 0) ∧
      (x ≠ VF → ((t.reg x).toNat : Int) = ((s.reg y).toNat - (s.reg x).toNat : Int) % 256) ∧
      ∀ r, r ≠ x → r ≠ VF → t.reg r = s.reg r

/-- R78, R130, R137, R139: `8xy6` and `8xyE` halve and double `V[x]` on 8 bits and leave the bit shifted out in `VF`,
whatever `y` is (the reading of `V[x]`, which the spec asks to be flagged: log entry 34); where `x` is F the flag stands
(the spec's decision D6, log entry 9). -/
def Obligations.ShiftsByOne : Prop :=
  ∀ (x y : Reg) (s : State),
    (∃ t, exec (.shr x y) s = .next t ∧ t = { s with v := t.v } ∧ (t.reg VF).toNat = (s.reg x).toNat % 2 ∧
      (x ≠ VF → (t.reg x).toNat = (s.reg x).toNat / 2) ∧ ∀ r, r ≠ x → r ≠ VF → t.reg r = s.reg r) ∧
    ∃ t, exec (.shl x y) s = .next t ∧ t = { s with v := t.v } ∧ (t.reg VF).toNat = (s.reg x).toNat / 128 ∧
      (x ≠ VF → (t.reg x).toNat = (s.reg x).toNat * 2 % 256) ∧ ∀ r, r ≠ x → r ≠ VF → t.reg r = s.reg r

/-! ### Index register and timer moves (44_index_memory.md, 46_keys_timers.md) -/

/-- R150, R173, R174, and the assignment of R175: the moves into `I` and between `V[x]` and the timers, their words
and their effect, and nothing else. -/
def Obligations.IndexAndTimerMoves : Prop :=
  (∀ (x : Reg) (nnn : Imm12),
    decode (0xA#4 ++ nnn) = .ok (.ldI nnn) ∧ decode (0xF#4 ++ fieldOf x ++ 0x07#8) = .ok (.ldVxDt x) ∧
    decode (0xF#4 ++ fieldOf x ++ 0x15#8) = .ok (.ldDtVx x) ∧
    decode (0xF#4 ++ fieldOf x ++ 0x18#8) = .ok (.ldStVx x)) ∧
  ∀ (x : Reg) (nnn : Imm12) (s : State),
    (∃ t, exec (.ldI nnn) s = .next t ∧ t = { s with i := t.i } ∧ t.i.toNat = nnn.toNat) ∧
    (∃ t, exec (.ldVxDt x) s = .next t ∧ t = { s with v := t.v } ∧ t.reg x = s.dt ∧
      ∀ r, r ≠ x → t.reg r = s.reg r) ∧
    exec (.ldDtVx x) s = .next { s with dt := s.reg x } ∧ exec (.ldStVx x) s = .next { s with st := s.reg x }

/-- R151, R152: `Fx1E` adds modulo 65536 and `Fx29` multiplies the whole byte by 5; neither writes a flag nor faults
(the spec's decisions D26 and D19, log entries 21, 17). -/
def Obligations.IndexArithmetic : Prop :=
  ∀ (x : Reg) (s : State),
    (∃ t, exec (.addI x) s = .next t ∧ t = { s with i := t.i } ∧
      t.i.toNat = (s.i.toNat + (s.reg x).toNat) % 65536) ∧
    ∃ t, exec (.ldF x) s = .next t ∧ t = { s with i := t.i } ∧ t.i.toNat = (s.reg x).toNat * 5

/-! ### Memory-indexed instructions (44_index_memory.md) -/

/-- R153: with three bytes at `I`, `Fx33` leaves there the decimal digits of `V[x]`, hundreds first, and changes no
other byte and nothing else; `I` stays (the spec's decision D14, log entry 12). That a store below 80 succeeds too
(20_memory.md R65) is the spec's decision D17 (log entry 15); the premise on memory is its canonical form (log entry
28). -/
def Obligations.BcdStoresTheDigits : Prop :=
  ∀ (x : Reg) (s : State), s.memWf = true → s.i.toNat + 2 < 4096 →
    ∃ t, exec (.ldB x) s = .next t ∧ t = { s with mem := t.mem } ∧
      (t.byteAt s.i.toNat).toNat * 100 + (t.byteAt (s.i.toNat + 1)).toNat * 10 +
        (t.byteAt (s.i.toNat + 2)).toNat = (s.reg x).toNat ∧
      (t.byteAt (s.i.toNat + 1)).toNat ≤ 9 ∧ (t.byteAt (s.i.toNat + 2)).toNat ≤ 9 ∧
      ∀ a, a < s.i.toNat ∨ s.i.toNat + 2 < a → t.byteAt a = s.byteAt a

/-- R154: with `x + 1` bytes at `I`, `Fx55` leaves `V[k]` at `I + k` for `k` up to `x`, and changes no other byte and
nothing else; `I` stays (the spec's decision D14, log entry 12). That a store below 80 succeeds too (20_memory.md R65)
is the spec's decision D17 (log entry 15); the premise on memory is its canonical form (log entry 28). -/
def Obligations.BlockStore : Prop :=
  ∀ (x : Reg) (s : State), s.memWf = true → s.i.toNat + x.val < 4096 →
    ∃ t, exec (.ldMemVx x) s = .next t ∧ t = { s with mem := t.mem } ∧
      (∀ k : Reg, k.val ≤ x.val → t.byteAt (s.i.toNat + k.val) = s.reg k) ∧
      ∀ a, a < s.i.toNat ∨ s.i.toNat + x.val < a → t.byteAt a = s.byteAt a

/-- R155: with `x + 1` bytes at `I`, `Fx65` leaves the byte at `I + k` in `V[k]` for `k` up to `x`, and changes no
register above `x` and nothing else; `I` stays (the spec's decision D14, log entry 12). -/
def Obligations.BlockLoad : Prop :=
  ∀ (x : Reg) (s : State), s.i.toNat + x.val < 4096 →
    ∃ t, exec (.ldVxMem x) s = .next t ∧ t = { s with v := t.v } ∧
      (∀ k : Reg, k.val ≤ x.val → t.reg k = s.byteAt (s.i.toNat + k.val)) ∧
      ∀ k : Reg, x.val < k.val → t.reg k = s.reg k

/-- R51, R156, R201: a memory-indexed instruction whose range reaches address 4096 or beyond, on unbounded integers,
changes nothing and faults with its word and the lowest invalid address (the spec's decisions D10 and D11, log entries
6, 7, 13). -/
def Obligations.RangePastTheEndFaults : Prop :=
  ∀ (x y : Reg) (s : State),
    (4096 ≤ s.i.toNat + 2 → ∃ t, exec (.ldB x) s = .next t ∧
      t = { s with faultCause := .addrData, faultIr := 0xF#4 ++ fieldOf x ++ 0x33#8, faultInfo := t.faultInfo } ∧
      t.faultInfo.toNat = max s.i.toNat 4096) ∧
    (4096 ≤ s.i.toNat + x.val → ∃ t, exec (.ldMemVx x) s = .next t ∧
      t = { s with faultCause := .addrData, faultIr := 0xF#4 ++ fieldOf x ++ 0x55#8, faultInfo := t.faultInfo } ∧
      t.faultInfo.toNat = max s.i.toNat 4096) ∧
    (4096 ≤ s.i.toNat + x.val → ∃ t, exec (.ldVxMem x) s = .next t ∧
      t = { s with faultCause := .addrData, faultIr := 0xF#4 ++ fieldOf x ++ 0x65#8, faultInfo := t.faultInfo } ∧
      t.faultInfo.toNat = max s.i.toNat 4096) ∧
    ∀ n : Nat, 0 < n → n < 16 → 4096 ≤ s.i.toNat + n - 1 → ∃ t, exec (.drw x y n) s = .next t ∧
      t = { s with
        faultCause := .addrData
        faultIr := 0xD#4 ++ fieldOf x ++ fieldOf y ++ BitVec.ofNat 4 n
        faultInfo := t.faultInfo } ∧
      t.faultInfo.toNat = max s.i.toNat 4096

/-- 20_memory.md R61, R63: an instruction that a block store puts at `PC` is the one the very next step runs. That a
store below 80 succeeds too (R65) is the spec's decision D17 (log entry 15); the premise on memory is its canonical form
(log entry 28). -/
def Obligations.StoredInstructionRunsNext : Prop :=
  ∀ (x : Reg) (s : State) (j : Instr), s.faulted = false → s.memWf = true → 0 < x.val →
    s.i.toNat + x.val < 4096 → s.pc = s.i → decode (s.reg 0 ++ s.reg 1) = .ok j →
    ∃ t, exec (.ldMemVx x) s = .next t ∧ step t = exec j { t with pc := t.pc + 2 }

/-! ### Display (45_display.md) -/

/-- R160: `00E0` clears all 2048 cells and changes nothing else, `VF` included. -/
def Obligations.ClearScreen : Prop :=
  decode 0x00E0 = .ok .cls ∧
  ∀ s : State, ∃ t, exec .cls s = .next t ∧ t = { s with fb := t.fb } ∧ ∀ k : Fin 2048, cell t.fb k = false

/-- The sprite mask `S` of 45_display.md R162, for a sprite of `n` rows at (`V[x]`, `V[y]`): the cells its 1-bits land
on, both coordinates wrapped, bit 7 leftmost (general knowledge in the spec, D5, log entry 4). -/
def inSprite (s : State) (x y : Reg) (n : Nat) (k : Fin 2048) : Prop :=
  ∃ r c, r < n ∧ c ≤ 7 ∧ (s.byteAt (s.i.toNat + r)).getLsbD (7 - c) = true ∧
    k.val = ((s.reg x).toNat + c) % 64 + 64 * (((s.reg y).toNat + r) % 32)

/-- R161, R162: where the sprite's bytes exist (always for `n` = 0), `Dxyn` flips exactly the cells of the sprite mask,
leaves 1 in `VF` if one of them was set before and 0 otherwise, and changes nothing else. The bit order, the check
before drawing, `VF` for `n` = 0 and `I` left as it was are the spec's decisions D5, D11, D25, D14 (log entries 4, 13,
20, 12). -/
def Obligations.DrawFlipsTheSpriteMask : Prop :=
  ∀ (x y : Reg) (n : Nat) (s : State), n < 16 → (n = 0 ∨ s.i.toNat + n - 1 < 4096) →
    ∃ t, exec (.drw x y n) s = .next t ∧ t = { s with fb := t.fb, v := t.v } ∧
      (∀ k, inSprite s x y n k → cell t.fb k = !cell s.fb k) ∧
      (∀ k, ¬ inSprite s x y n k → cell t.fb k = cell s.fb k) ∧
      ((∃ k, inSprite s x y n k ∧ cell s.fb k = true) → t.reg VF = 1) ∧
      ((¬ ∃ k, inSprite s x y n k ∧ cell s.fb k = true) → t.reg VF = 0) ∧
      ∀ r, r ≠ VF → t.reg r = s.reg r

/-- R163 (a): drawing a sprite twice at the same coordinates restores the framebuffer, and from a clear screen the
second draw reports a collision exactly when the sprite has a 1-bit (the spec's decisions D5, D11, D25, log entries 4,
13, 20). The second draw runs with the registers of the first, since the first may have written its own coordinate, and
at the same `I`, which a draw leaves as it was (R156, the spec's decision D14, log entry 12). -/
def Obligations.DrawTwiceRestoresTheScreen : Prop :=
  ∀ (x y : Reg) (n : Nat) (s : State), n < 16 → (n = 0 ∨ s.i.toNat + n - 1 < 4096) →
    ∃ t u, exec (.drw x y n) s = .next t ∧ exec (.drw x y n) { t with v := s.v } = .next u ∧ u.fb = s.fb ∧
      ((∀ k, cell s.fb k = false) → t.reg VF = 0 ∧ (u.reg VF = 1 ↔ ∃ k, inSprite s x y n k))

/-! ### Keys (46_keys_timers.md) -/

/-- R170, R171: the two skips on the key that the value of `V[x]` names, and nothing else changed. -/
def Obligations.SkipsOnKeys : Prop :=
  ∀ (x : Reg) (s : State) (k : KeyIndex), (s.reg x).toNat = k.val →
    exec (.skp x) s = .next (if s.key k = true then { s with pc := s.pc + 2 } else s) ∧
    exec (.sknp x) s = .next (if s.key k = true then s else { s with pc := s.pc + 2 })

/-- R176, R205, R208: a key number of 16 or more faults with the number as detail, `PC` stays fetch-advanced and nothing
else changes (the spec's decisions D8, D10 and D11, log entries 11, 6, 7). -/
def Obligations.KeyNumberFaults : Prop :=
  ∀ (x : Reg) (s : State), 16 ≤ (s.reg x).toNat →
    exec (.skp x) s = .next { s with
      faultCause := .keyIndex, faultIr := 0xE#4 ++ fieldOf x ++ 0x9E#8, faultInfo := zext16 (s.reg x) } ∧
    exec (.sknp x) s = .next { s with
      faultCause := .keyIndex, faultIr := 0xE#4 ++ fieldOf x ++ 0xA1#8, faultInfo := zext16 (s.reg x) }

/-- R172: with a key pressed `Fx0A` puts the least pressed key in `V[x]` and changes nothing else; with none pressed its
step leaves the whole state exactly as before the step. -/
def Obligations.KeyWait : Prop :=
  (∀ x : Reg, decode (0xF#4 ++ fieldOf x ++ 0x0A#8) = .ok (.ldVxK x)) ∧
  (∀ (x : Reg) (s : State) (k : KeyIndex), s.key k = true → (∀ j, j < k → s.key j = false) →
    ∃ t, exec (.ldVxK x) s = .next t ∧ t = { s with v := t.v } ∧ (t.reg x).toNat = k.val ∧
      ∀ r, r ≠ x → t.reg r = s.reg r) ∧
  (∀ (x : Reg) (s : State), (∀ k, s.key k = false) → exec (.ldVxK x) s = .next { s with pc := s.pc - 2 }) ∧
  ∀ (x : Reg) (s : State), s.faulted = false → s.pc.toNat ≤ 4094 → (∀ k, s.key k = false) →
    s.byteAt s.pc.toNat ++ s.byteAt (s.pc.toNat + 1) = 0xF#4 ++ fieldOf x ++ 0x0A#8 → step s = .next s

/-! ### Host operations (50_host_interface.md, 60_exceptions.md) -/

/-- R36, R53, R185: `RESET` puts every piece of state at its reset value whatever it held: `PC` 0x200, the glyph table
of the core, whatever it is, in 0..79, everything else zero, not faulted. The zeros of `I`, `SP`, `DT`, `ST` and the
record are the spec's decision D9 (log entry 5), the glyph table is the core's parameter (log entry 36), and the counter
of draws, the model's own field, is not reset (log entry 2). -/
def Obligations.ResetValues : Prop :=
  ∀ s : State, ∃ t, hostOp .reset s = .next t ∧ t = { State.resetWith s.glyph with draws := s.draws } ∧
    t.pc = 0x0200 ∧ (∀ r, t.reg r = 0) ∧ t.i = 0 ∧ (∀ k : Fin 16, t.stack[k] = 0) ∧ t.sp.val = 0 ∧ t.dt = 0 ∧
    t.st = 0 ∧ (∀ k, t.key k = false) ∧ (∀ k, cell t.fb k = false) ∧
    (∀ a (h : a < 80), t.byteAt a = s.glyph[a]) ∧ (∀ a, 80 ≤ a → t.byteAt a = 0) ∧
    t.faultCause = .noFault ∧ t.faultIr = 0 ∧ t.faultInfo = 0

/-- R217: `TICK` counts each timer down by one, independently, each floored at 0, faulted core or not, and changes
nothing else; its tone pulse is high exactly when it finds `ST` = 1. No other operation counts a timer down: apart from
the zeros of `RESET`, `DT` changes only by a step of `Fx15` and `ST` only by a step of `Fx18`. When the tone pulse is
high is the spec's decision D16 (log entry 22); what a faulted core does on `TICK` and `STEP` is its decision D12 (log
entry 8). -/
def Obligations.OnlyTheTickCountsDown : Prop :=
  (∀ s : State, tonePulse .tick s = decide (s.st.toNat = 1) ∧
    ∃ t, hostOp .tick s = .next t ∧ t = { s with dt := t.dt, st := t.st } ∧ t.dt.toNat = s.dt.toNat - 1 ∧
      t.st.toNat = s.st.toNat - 1) ∧
  ∀ (s t : State) (op : HostOp), op ≠ .tick → op ≠ .reset → hostOp op s = .next t →
    (t.dt = s.dt ∨ ∃ x, op = .step ∧ t.dt = s.reg x ∧
      decode (s.byteAt s.pc.toNat ++ s.byteAt (s.pc.toNat + 1)) = .ok (.ldDtVx x)) ∧
    (t.st = s.st ∨ ∃ x, op = .step ∧ t.st = s.reg x ∧
      decode (s.byteAt s.pc.toNat ++ s.byteAt (s.pc.toNat + 1)) = .ok (.ldStVx x))

/-- R186: `SET_KEY(k, p)` sets one key latch, in every state, and changes nothing else. -/
def Obligations.SetKeyWritesOneLatch : Prop :=
  ∀ (s : State) (k : KeyIndex) (p : Bool), ∃ t, hostOp (.setKey k p) s = .next t ∧ t = { s with keys := t.keys } ∧
    ∀ j, t.key j = if j = k then p else s.key j

/-- R187, R188: `LOAD` of at most 3584 bytes copies them to 0x200 upward and changes nothing else; a longer image is
rejected and leaves the whole state as it was (the spec's decision D18, log entry 16). The premise on memory is its
canonical form (log entry 28). -/
def Obligations.LoadCopiesOrIsRejected : Prop :=
  ∀ (s : State) (image : List Byte),
    (image.length ≤ 3584 → s.memWf = true → loadRejected (.load image) = false ∧
      ∃ t, hostOp (.load image) s = .next t ∧ t = { s with mem := t.mem } ∧
        (∀ k (h : k < image.length), t.byteAt (0x200 + k) = image[k]) ∧
        ∀ a, a < 0x200 ∨ 0x200 + image.length ≤ a → t.byteAt a = s.byteAt a) ∧
    (3584 < image.length → loadRejected (.load image) = true ∧ hostOp (.load image) s = .next s)

/-- R181, R182, R187, R188: at the signal level, edges without `rst` that announce an image of at most 3584 bytes and
present its bytes in order, with any edges that are `IDLE` before, between and after them, end in the state of the
transaction `LOAD`, with no burst open and `ld_err` low; and a length above 3584 raises `ld_err` and changes nothing.
The signal level, its order of commands and the rejection are the spec's decisions D1, D2 and D18 (log entries 26, 23,
16). -/
def Obligations.LoadBurstIsLoad : Prop :=
  ∀ (s : State) (a b : Bool),
    (∀ (image : List Byte) (edges : List Pins), image.length ≤ 3584 → (∀ p, p ∈ edges → p.rst = false) →
      edges.filter (fun p => command p != .idle) = loadBurst image →
      ∃ t, s.load image = some t ∧ runEdges edges ⟨s, none, a, b⟩ = .next ⟨t, none, false, false⟩) ∧
    ∀ len : Nat, 3584 < len → len < 8192 → edge (pinsLoadBegin len) ⟨s, none, a, b⟩ = .next ⟨s, none, false, true⟩

/-- 70_reset_and_hazards.md R241: in a state at the end of a run by the spec's convention (decision D20, log entry 33),
a step leaves the whole state unchanged. -/
def Obligations.EndOfRunIsAFixpoint : Prop := ∀ s : State, s.runEnded = true → step s = .next s

/-- R6, R53: the glyph table is a parameter of the core (the spec's decision D4), which no host operation changes, and
ordinary memory content: an instruction does the same in two cores whose tables differ and whose memories hold the same
bytes. That the table stands in State beside the memory is the model's own (log entries 28, 36). -/
def Obligations.GlyphTableIsOrdinaryMemory : Prop :=
  (∀ (s t : State) (op : HostOp), hostOp op s = .next t → t.glyph = s.glyph) ∧
  ∀ (i : Instr) (s r t : State), s.memWf = true → r.memWf = true → r = { s with glyph := r.glyph, mem := r.mem } →
    (∀ a, r.byteAt a = s.byteAt a) → exec i s = .next t →
    ∃ u, exec i r = .next u ∧ u = { t with glyph := r.glyph, mem := u.mem } ∧ ∀ a, u.byteAt a = t.byteAt a
end

