-- ==== Sys2Proof/Laws/Decode.lean ====
section
/-! SUPPORT. The fields of the words the formats of 30_encoding.md R73 make, and that a word is made of its fields
(R72). -/

namespace Sys2Proof

@[simp] theorem regOf_fieldOf (x : Reg) : regOf (fieldOf x) = x := by
  apply Fin.ext; simp [regOf, fieldOf]

@[simp] theorem fieldOf_regOf (f : BitVec 4) : fieldOf (regOf f) = f := by
  simp [regOf, fieldOf]

/-! ### Slices of a concatenation -/

/-- The high part of `{a, b}` is `a`. -/
theorem slice_high {m n : Nat} (a : BitVec m) (b : BitVec n) : (a ++ b).extractLsb' n m = a := by
  apply BitVec.eq_of_getLsbD_eq
  intro k hk
  simp [BitVec.getLsbD_append, hk]

/-- The low part of `{a, b}` is `b`. -/
theorem slice_low {m n : Nat} (a : BitVec m) (b : BitVec n) : (a ++ b).extractLsb' 0 n = b := by
  apply BitVec.eq_of_getLsbD_eq
  intro k hk
  simp [BitVec.getLsbD_append, hk]

/-- A slice within the low part. -/
theorem slice_in_low {m n l k : Nat} (a : BitVec m) (b : BitVec n) (h : k + l ≤ n) :
    (a ++ b).extractLsb' k l = b.extractLsb' k l := by
  apply BitVec.eq_of_getLsbD_eq
  intro j hj
  simp [BitVec.getLsbD_append, hj, show k + j < n by omega]

/-- A slice within the high part. -/
theorem slice_in_high {m n l k : Nat} (a : BitVec m) (b : BitVec n) (h : n ≤ k) :
    (a ++ b).extractLsb' k l = a.extractLsb' (k - n) l := by
  apply BitVec.eq_of_getLsbD_eq
  intro j hj
  simp [BitVec.getLsbD_append, hj, show ¬ (k + j < n) by omega]
  congr 1
  omega

/-- The slice of all of a value. -/
theorem slice_all {n : Nat} (a : BitVec n) : a.extractLsb' 0 n = a := by
  apply BitVec.eq_of_getLsbD_eq
  intro k hk
  simp [hk]

/-! ### The fields of each format -/

@[simp] theorem d1_wordNNN (f : BitVec 4) (nnn : Imm12) : d1 (wordNNN f nnn) = f := slice_high _ _

@[simp] theorem fieldNNN_wordNNN (f : BitVec 4) (nnn : Imm12) : fieldNNN (wordNNN f nnn) = nnn := slice_low _ _

@[simp] theorem fieldNN_wordXNN (f : BitVec 4) (x : Reg) (nn : Byte) : fieldNN (wordXNN f x nn) = nn := slice_low _ _

@[simp] theorem d1_wordXNN (f : BitVec 4) (x : Reg) (nn : Byte) : d1 (wordXNN f x nn) = f := by
  unfold d1 wordXNN
  rw [slice_in_high _ _ (by omega), slice_in_high _ _ (by omega)]
  exact slice_all _

@[simp] theorem d2_wordXNN (f : BitVec 4) (x : Reg) (nn : Byte) : d2 (wordXNN f x nn) = fieldOf x := by
  unfold d2 wordXNN
  rw [slice_in_high _ _ (by omega), slice_in_low _ _ (by omega)]
  exact slice_all _

@[simp] theorem d1_wordXYN (f : BitVec 4) (x y : Reg) (n : BitVec 4) : d1 (wordXYN f x y n) = f := by
  unfold d1 wordXYN
  rw [slice_in_high _ _ (by omega), slice_in_high _ _ (by omega), slice_in_high _ _ (by omega)]
  exact slice_all _

@[simp] theorem d2_wordXYN (f : BitVec 4) (x y : Reg) (n : BitVec 4) : d2 (wordXYN f x y n) = fieldOf x := by
  unfold d2 wordXYN
  rw [slice_in_high _ _ (by omega), slice_in_high _ _ (by omega), slice_in_low _ _ (by omega)]
  exact slice_all _

@[simp] theorem d3_wordXYN (f : BitVec 4) (x y : Reg) (n : BitVec 4) : d3 (wordXYN f x y n) = fieldOf y := by
  unfold d3 wordXYN
  rw [slice_in_high _ _ (by omega), slice_in_low _ _ (by omega)]
  exact slice_all _

@[simp] theorem d4_wordXYN (f : BitVec 4) (x y : Reg) (n : BitVec 4) : d4 (wordXYN f x y n) = n := by
  unfold d4 wordXYN
  rw [slice_in_low _ _ (by omega)]
  exact slice_all _

/-! ### A word is made of its fields -/

theorem word_of_nibbles (ir : Word) : d1 ir ++ d2 ir ++ d3 ir ++ d4 ir = ir := by
  apply BitVec.eq_of_getLsbD_eq
  intro k hk
  simp only [d1, d2, d3, d4, BitVec.getLsbD_append, BitVec.getLsbD_extractLsb']
  interval_cases k <;> simp

theorem word_of_x_nn (ir : Word) : d1 ir ++ d2 ir ++ fieldNN ir = ir := by
  apply BitVec.eq_of_getLsbD_eq
  intro k hk
  simp only [d1, d2, fieldNN, BitVec.getLsbD_append, BitVec.getLsbD_extractLsb']
  interval_cases k <;> simp

theorem word_of_nnn (ir : Word) : d1 ir ++ fieldNNN ir = ir := by
  apply BitVec.eq_of_getLsbD_eq
  intro k hk
  simp only [d1, fieldNNN, BitVec.getLsbD_append, BitVec.getLsbD_extractLsb']
  interval_cases k <;> simp

/-- A word with family `f` is the NNN word of its own `nnn`. -/
theorem wordNNN_of_fields {ir : Word} {f : BitVec 4} (h : d1 ir = f) : wordNNN f (fieldNNN ir) = ir := by
  subst h
  exact word_of_nnn ir

/-- A word with family `f` and low byte `nn` is the XNN word of its own `x`. -/
theorem wordXNN_of_fields {ir : Word} {f : BitVec 4} {nn : Byte} (h : d1 ir = f) (hn : fieldNN ir = nn) :
    wordXNN f (fieldX ir) nn = ir := by
  subst h hn
  simp only [wordXNN, fieldX, fieldOf_regOf]
  exact word_of_x_nn ir

/-- A word with family `f` and last nibble `n` is the XYN word of its own `x` and `y`. -/
theorem wordXYN_of_fields {ir : Word} {f n : BitVec 4} (h : d1 ir = f) (hn : d4 ir = n) :
    wordXYN f (fieldX ir) (fieldY ir) n = ir := by
  subst h hn
  simp only [wordXYN, fieldX, fieldY, fieldOf_regOf]
  exact word_of_nibbles ir

end Sys2Proof
end

