-- ==== Sys2Proof/Laws/Memory.lean ====
section
/-! SUPPORT. The laws of memory (20_memory.md R54, R55, R61): what a read gives after a write, that every memory
operation keeps the canonical form, and what a ranged access does. -/

namespace Sys2Proof.Machine

/-! ### The canonical form -/

theorem wfFrom_cons {lo a : Nat} {b : Byte} {g : GlyphTable} {rest : Memory} :
    wfFrom g lo ((a, b) :: rest) = true ↔ lo ≤ a ∧ a < 4096 ∧ b ≠ resetByte g a ∧ wfFrom g (a + 1) rest = true := by
  simp [wfFrom, and_assoc]

theorem wfFrom_mono {lo lo' : Nat} {g : GlyphTable} {m : Memory} (h : lo' ≤ lo) (hm : wfFrom g lo m = true) : wfFrom g lo' m = true := by
  cases m with
  | nil => rfl
  | cons c rest =>
    obtain ⟨a, b⟩ := c
    rw [wfFrom_cons] at hm ⊢
    exact ⟨h.trans hm.1, hm.2⟩

/-- An address below the form's bound is not listed. -/
theorem readByte_of_wfFrom {lo a : Nat} {g : GlyphTable} {m : Memory} (hm : wfFrom g lo m = true) (h : a < lo) :
    readByte g m a = resetByte g a := by
  induction m generalizing lo with
  | nil => rfl
  | cons c rest ih =>
    obtain ⟨k, b⟩ := c
    rw [wfFrom_cons] at hm
    have hk : a ≠ k := by omega
    simpa [readByte, hk] using ih hm.2.2.2 (by omega)

theorem wfFrom_writeByte {lo a : Nat} {g : GlyphTable} {m : Memory} (b : Byte) (hm : wfFrom g lo m = true) (hlo : lo ≤ a)
    (ha : a < 4096) : wfFrom g lo (writeByte g m a b) = true := by
  induction m generalizing lo with
  | nil =>
    unfold writeByte
    split
    · rfl
    · rename_i hb; exact wfFrom_cons.2 ⟨hlo, ha, hb, rfl⟩
  | cons c rest ih =>
    obtain ⟨k, d⟩ := c
    have hc := wfFrom_cons.1 hm
    unfold writeByte
    split
    · rename_i hak
      split
      · exact hm
      · rename_i hb
        exact wfFrom_cons.2 ⟨hlo, ha, hb, wfFrom_cons.2 ⟨hak, hc.2⟩⟩
    · split
      · rename_i hak heq
        subst heq
        split
        · exact wfFrom_mono (by omega) hc.2.2.2
        · rename_i hb; exact wfFrom_cons.2 ⟨hlo, ha, hb, hc.2.2.2⟩
      · rename_i hak heq
        exact wfFrom_cons.2 ⟨hc.1, hc.2.1, hc.2.2.1, ih hc.2.2.2 (by omega)⟩

/-- A byte write keeps the canonical form. -/
theorem writeByte_wf {g : GlyphTable} {m : Memory} {a : Nat} (b : Byte) (hm : m.wf g = true) (ha : a < 4096) :
    (writeByte g m a b).wf g = true :=
  wfFrom_writeByte b hm (Nat.zero_le a) ha

/-- A write of consecutive bytes within memory keeps the canonical form. -/
theorem writeBytes_wf {g : GlyphTable} {m : Memory} {a : Nat} {bs : List Byte} (hm : m.wf g = true) (h : a + bs.length ≤ 4096) :
    (writeBytes g m a bs).wf g = true := by
  induction bs generalizing m a with
  | nil => exact hm
  | cons b bs ih =>
    have hl : a + (bs.length + 1) ≤ 4096 := h
    exact ih (writeByte_wf b hm (by omega)) (by omega)

/-! ### Reading after writing -/

/-- A byte write leaves every other address alone. -/
theorem readByte_writeByte_of_ne {g : GlyphTable} {m : Memory} {a c : Nat} (b : Byte) (h : c ≠ a) :
    readByte g (writeByte g m a b) c = readByte g m c := by
  induction m with
  | nil => unfold writeByte; split <;> simp [readByte, h]
  | cons x rest ih =>
    obtain ⟨k, d⟩ := x
    unfold writeByte
    split
    · split <;> simp [readByte, h]
    · split
      · rename_i heq
        subst heq
        split <;> simp [readByte, h]
      · simp [readByte, ih]

theorem readByte_writeByte_self_of_wfFrom {lo a : Nat} {g : GlyphTable} {m : Memory} (b : Byte) (hm : wfFrom g lo m = true)
    (hlo : lo ≤ a) : readByte g (writeByte g m a b) a = b := by
  induction m generalizing lo with
  | nil =>
    unfold writeByte
    split
    · rename_i hb; simp [readByte, hb]
    · simp [readByte]
  | cons x rest ih =>
    obtain ⟨k, d⟩ := x
    have hc := wfFrom_cons.1 hm
    unfold writeByte
    split
    · rename_i hak
      split
      · rename_i hb
        have hk : a ≠ k := by omega
        simp only [readByte, hk, if_false]
        rw [readByte_of_wfFrom hc.2.2.2 (by omega), hb]
      · simp [readByte]
    · split
      · rename_i hak heq
        subst heq
        split
        · rename_i hb
          rw [readByte_of_wfFrom hc.2.2.2 (by omega), hb]
        · simp [readByte]
      · rename_i hak heq
        simp only [readByte, heq, if_false]
        exact ih hc.2.2.2 (by omega)

/-- The byte written is the byte read (R61). -/
theorem readByte_writeByte_self {g : GlyphTable} {m : Memory} {a : Nat} (b : Byte) (hm : m.wf g = true) :
    readByte g (writeByte g m a b) a = b :=
  readByte_writeByte_self_of_wfFrom b hm (Nat.zero_le a)

/-- A write of consecutive bytes leaves every address outside it alone. -/
theorem readByte_writeBytes_of_outside {g : GlyphTable} {m : Memory} {a c : Nat} {bs : List Byte}
    (h : c < a ∨ a + bs.length ≤ c) : readByte g (writeBytes g m a bs) c = readByte g m c := by
  induction bs generalizing m a with
  | nil => rfl
  | cons b bs ih =>
    have hl : c < a ∨ a + (bs.length + 1) ≤ c := h
    have : readByte g (writeBytes g (writeByte g m a b) (a + 1) bs) c = readByte g (writeByte g m a b) c := ih (by omega)
    exact this.trans (readByte_writeByte_of_ne b (by omega))

/-- A write of consecutive bytes puts each byte at its own address. -/
theorem readByte_writeBytes_inside {g : GlyphTable} {m : Memory} {a k : Nat} {bs : List Byte} (hm : m.wf g = true)
    (h : a + bs.length ≤ 4096) (hk : k < bs.length) : readByte g (writeBytes g m a bs) (a + k) = bs[k] := by
  induction bs generalizing m a k with
  | nil => simp at hk
  | cons b bs ih =>
    have hl : a + (bs.length + 1) ≤ 4096 := h
    cases k with
    | zero =>
      have h0 : readByte g (writeBytes g (writeByte g m a b) (a + 1) bs) a = readByte g (writeByte g m a b) a :=
        readByte_writeBytes_of_outside (Or.inl (by omega))
      exact h0.trans (readByte_writeByte_self b hm)
    | succ k =>
      have := ih (m := writeByte g m a b) (a := a + 1) (k := k) (writeByte_wf b hm (by omega)) (by omega)
        (by simpa using hk)
      simpa [writeBytes, Nat.add_comm 1 k, Nat.add_assoc] using this

/-! ### Ranges -/

@[simp] theorem length_readBytes (g : GlyphTable) (m : Memory) (a k : Nat) : (readBytes g m a k).length = k := by
  induction k generalizing a with
  | zero => rfl
  | succ k ih => simp [readBytes, ih]

theorem getElem_readBytes (g : GlyphTable) (m : Memory) (a k j : Nat) (h : j < (readBytes g m a k).length) :
    (readBytes g m a k)[j] = readByte g m (a + j) := by
  induction k generalizing a j with
  | zero => simp at h
  | succ k ih =>
    cases j with
    | zero => simp [readBytes]
    | succ j => simpa [readBytes, Nat.add_assoc, Nat.add_comm 1 j] using ih (a + 1) j (by simpa [readBytes] using h)

/-- When a range is valid (R58). -/
theorem rangeValid_iff (a k : Nat) : rangeValid a k = true ↔ k = 0 ∨ a + k ≤ 4096 := by simp [rangeValid]

/-- Everything a ranged read can answer. -/
theorem memRead_cases (s : State) (a k : Nat) :
    ((k = 0 ∨ a + k ≤ 4096) ∧ s.memRead a k = some (readBytes s.glyph s.mem a k)) ∨
    ((0 < k ∧ 4096 < a + k) ∧ s.memRead a k = none) := by
  unfold State.memRead
  by_cases h : rangeValid a k = true
  · exact Or.inl ⟨(rangeValid_iff a k).1 h, by simp [h]⟩
  · have h' := h
    rw [rangeValid_iff] at h'
    exact Or.inr ⟨by omega, by simp [h]⟩

/-- Everything a ranged write can answer. -/
theorem memWrite_cases (s : State) (a : Nat) (bs : List Byte) :
    ((bs.length = 0 ∨ a + bs.length ≤ 4096) ∧ s.memWrite a bs = some (s.putBytes a bs)) ∨
    ((0 < bs.length ∧ 4096 < a + bs.length) ∧ s.memWrite a bs = none) := by
  unfold State.memWrite
  by_cases h : rangeValid a bs.length = true
  · exact Or.inl ⟨(rangeValid_iff a bs.length).1 h, by simp [h]⟩
  · have h' := h
    rw [rangeValid_iff] at h'
    exact Or.inr ⟨by omega, by simp [h]⟩

/-! ### The memory of a state -/

/-- A byte read from a range is the byte of the state. -/
theorem getElem_readBytes_state (s : State) (a k j : Nat) (h : j < (readBytes s.glyph s.mem a k).length) :
    (readBytes s.glyph s.mem a k)[j] = s.byteAt (a + j) := getElem_readBytes s.glyph s.mem a k j h

/-- A write of consecutive bytes leaves every address outside it alone. -/
theorem byteAt_putBytes_of_outside {s : State} {a c : Nat} {bs : List Byte} (h : c < a ∨ a + bs.length ≤ c) :
    (s.putBytes a bs).byteAt c = s.byteAt c := readByte_writeBytes_of_outside h

/-- A write of consecutive bytes puts each byte at its own address. -/
theorem byteAt_putBytes_inside {s : State} {a k : Nat} {bs : List Byte} (hm : s.memWf = true)
    (h : a + bs.length ≤ 4096) (hk : k < bs.length) : (s.putBytes a bs).byteAt (a + k) = bs[k] :=
  readByte_writeBytes_inside hm h hk

/-- A write of consecutive bytes within memory keeps the canonical form. -/
theorem putBytes_memWf {s : State} {a : Nat} {bs : List Byte} (hm : s.memWf = true) (h : a + bs.length ≤ 4096) :
    (s.putBytes a bs).memWf = true := writeBytes_wf hm h

/-- A ranged write keeps the canonical form. -/
theorem memWrite_memWf {s t : State} {a : Nat} {bs : List Byte} (hm : s.memWf = true) (h : s.memWrite a bs = some t) :
    t.memWf = true := by
  rcases memWrite_cases s a bs with ⟨hr, he⟩ | ⟨_, he⟩
  · rw [he] at h
    obtain rfl := Option.some.inj h
    rcases hr with h0 | hr
    · rw [List.length_eq_zero_iff.1 h0]; exact hm
    · exact putBytes_memWf hm hr
  · rw [he] at h; exact absurd h (by simp)

/-- Everything `LOAD` can answer (R187, R188). -/
theorem load_cases (s : State) (image : List Byte) :
    (image.length ≤ 3584 ∧ s.load image = some (s.putBytes 0x200 image)) ∨
    (3584 < image.length ∧ s.load image = none) := by
  unfold State.load imageFits
  by_cases h : image.length ≤ 3584
  · exact Or.inl ⟨h, by simp [h]⟩
  · exact Or.inr ⟨by omega, by simp [h]⟩

/-- `LOAD` keeps the canonical form (R187). -/
theorem load_memWf {s t : State} {image : List Byte} (hm : s.memWf = true) (h : s.load image = some t) :
    t.memWf = true := by
  rcases load_cases s image with ⟨hl, he⟩ | ⟨_, he⟩
  · rw [he] at h
    obtain rfl := Option.some.inj h
    exact putBytes_memWf hm (by omega)
  · rw [he] at h; exact absurd h (by simp)

/-- Readying the fetch leaves memory alone. -/
theorem readyToFetch_memWf (s : State) : s.readyToFetch.memWf = s.memWf := by
  have hc : s.clearRecord.memWf = s.memWf := by unfold State.clearRecord; split <;> rfl
  unfold State.readyToFetch
  split
  · exact hc
  · exact hc

/-- A readied `PC` can be fetched from (R56). -/
theorem readyToFetch_pc (s : State) : s.readyToFetch.pc.toNat + 2 ≤ 4096 := by
  have hc : s.clearRecord.pc = s.pc := by unfold State.clearRecord; split <;> rfl
  unfold State.readyToFetch
  split
  · rename_i hr; rw [rangeValid_iff] at hr; rw [hc]; omega
  · simp [State.setPc, Config.base]

/-- Placing an instruction keeps the canonical form. -/
theorem placeWord_memWf {s : State} (ir : Word) (hm : s.memWf = true) : (s.placeWord ir).memWf = true :=
  putBytes_memWf (by rw [readyToFetch_memWf]; exact hm) (by simpa using readyToFetch_pc s)

/-- Reset memory has the canonical form, whatever the glyph table. -/
theorem resetWith_memWf (g : GlyphTable) : (State.resetWith g).memWf = true := rfl

/-- What reset memory reads as (R36, R53). -/
theorem resetWith_byteAt (g : GlyphTable) (a : Nat) : (State.resetWith g).byteAt a = resetByte g a := rfl

end Sys2Proof.Machine
end

