-- ==== Sys2Proof/Laws/State.lean ====
section
/-! SUPPORT. One lemma per field per named update of the state, true by rfl, so that no later proof unfolds a record
update. -/

namespace Sys2Proof.Machine

@[simp] theorem State.setPc_pc (s : State) (t : Word) : (s.setPc t).pc = t := rfl
@[simp] theorem State.setPc_v (s : State) (t : Word) : (s.setPc t).v = s.v := rfl
@[simp] theorem State.setPc_i (s : State) (t : Word) : (s.setPc t).i = s.i := rfl
@[simp] theorem State.setPc_stack (s : State) (t : Word) : (s.setPc t).stack = s.stack := rfl
@[simp] theorem State.setPc_sp (s : State) (t : Word) : (s.setPc t).sp = s.sp := rfl
@[simp] theorem State.setPc_dt (s : State) (t : Word) : (s.setPc t).dt = s.dt := rfl
@[simp] theorem State.setPc_st (s : State) (t : Word) : (s.setPc t).st = s.st := rfl
@[simp] theorem State.setPc_keys (s : State) (t : Word) : (s.setPc t).keys = s.keys := rfl
@[simp] theorem State.setPc_fb (s : State) (t : Word) : (s.setPc t).fb = s.fb := rfl
@[simp] theorem State.setPc_mem (s : State) (t : Word) : (s.setPc t).mem = s.mem := rfl
@[simp] theorem State.setPc_faultCause (s : State) (t : Word) : (s.setPc t).faultCause = s.faultCause := rfl
@[simp] theorem State.setPc_faultIr (s : State) (t : Word) : (s.setPc t).faultIr = s.faultIr := rfl
@[simp] theorem State.setPc_faultInfo (s : State) (t : Word) : (s.setPc t).faultInfo = s.faultInfo := rfl
@[simp] theorem State.setPc_draws (s : State) (t : Word) : (s.setPc t).draws = s.draws := rfl
@[simp] theorem State.setPc_glyph (s : State) (t : Word) : (s.setPc t).glyph = s.glyph := rfl
@[simp] theorem State.setPc_byteAt (s : State) (t : Word) (a' : Nat) : (s.setPc t).byteAt a' = s.byteAt a' := rfl
@[simp] theorem State.setPc_memWf (s : State) (t : Word) : (s.setPc t).memWf = s.memWf := rfl
@[simp] theorem State.setPc_reg (s : State) (t : Word) (r : Reg) : (s.setPc t).reg r = s.reg r := rfl
@[simp] theorem State.setPc_key (s : State) (t : Word) (k : KeyIndex) : (s.setPc t).key k = s.key k := rfl

@[simp] theorem State.setReg_pc (s : State) (x : Reg) (b : Byte) : (s.setReg x b).pc = s.pc := rfl
@[simp] theorem State.setReg_v (s : State) (x : Reg) (b : Byte) : (s.setReg x b).v = s.v.set x.val b x.isLt := rfl
@[simp] theorem State.setReg_i (s : State) (x : Reg) (b : Byte) : (s.setReg x b).i = s.i := rfl
@[simp] theorem State.setReg_stack (s : State) (x : Reg) (b : Byte) : (s.setReg x b).stack = s.stack := rfl
@[simp] theorem State.setReg_sp (s : State) (x : Reg) (b : Byte) : (s.setReg x b).sp = s.sp := rfl
@[simp] theorem State.setReg_dt (s : State) (x : Reg) (b : Byte) : (s.setReg x b).dt = s.dt := rfl
@[simp] theorem State.setReg_st (s : State) (x : Reg) (b : Byte) : (s.setReg x b).st = s.st := rfl
@[simp] theorem State.setReg_keys (s : State) (x : Reg) (b : Byte) : (s.setReg x b).keys = s.keys := rfl
@[simp] theorem State.setReg_fb (s : State) (x : Reg) (b : Byte) : (s.setReg x b).fb = s.fb := rfl
@[simp] theorem State.setReg_mem (s : State) (x : Reg) (b : Byte) : (s.setReg x b).mem = s.mem := rfl
@[simp] theorem State.setReg_faultCause (s : State) (x : Reg) (b : Byte) : (s.setReg x b).faultCause = s.faultCause := rfl
@[simp] theorem State.setReg_faultIr (s : State) (x : Reg) (b : Byte) : (s.setReg x b).faultIr = s.faultIr := rfl
@[simp] theorem State.setReg_faultInfo (s : State) (x : Reg) (b : Byte) : (s.setReg x b).faultInfo = s.faultInfo := rfl
@[simp] theorem State.setReg_draws (s : State) (x : Reg) (b : Byte) : (s.setReg x b).draws = s.draws := rfl
@[simp] theorem State.setReg_glyph (s : State) (x : Reg) (b : Byte) : (s.setReg x b).glyph = s.glyph := rfl
@[simp] theorem State.setReg_byteAt (s : State) (x : Reg) (b : Byte) (a' : Nat) : (s.setReg x b).byteAt a' = s.byteAt a' := rfl
@[simp] theorem State.setReg_memWf (s : State) (x : Reg) (b : Byte) : (s.setReg x b).memWf = s.memWf := rfl
@[simp] theorem State.setReg_key (s : State) (x : Reg) (b : Byte) (k : KeyIndex) : (s.setReg x b).key k = s.key k := rfl

@[simp] theorem State.advance_pc (s : State) : (s.advance).pc = s.pc + 2 := rfl
@[simp] theorem State.advance_v (s : State) : (s.advance).v = s.v := rfl
@[simp] theorem State.advance_i (s : State) : (s.advance).i = s.i := rfl
@[simp] theorem State.advance_stack (s : State) : (s.advance).stack = s.stack := rfl
@[simp] theorem State.advance_sp (s : State) : (s.advance).sp = s.sp := rfl
@[simp] theorem State.advance_dt (s : State) : (s.advance).dt = s.dt := rfl
@[simp] theorem State.advance_st (s : State) : (s.advance).st = s.st := rfl
@[simp] theorem State.advance_keys (s : State) : (s.advance).keys = s.keys := rfl
@[simp] theorem State.advance_fb (s : State) : (s.advance).fb = s.fb := rfl
@[simp] theorem State.advance_mem (s : State) : (s.advance).mem = s.mem := rfl
@[simp] theorem State.advance_faultCause (s : State) : (s.advance).faultCause = s.faultCause := rfl
@[simp] theorem State.advance_faultIr (s : State) : (s.advance).faultIr = s.faultIr := rfl
@[simp] theorem State.advance_faultInfo (s : State) : (s.advance).faultInfo = s.faultInfo := rfl
@[simp] theorem State.advance_draws (s : State) : (s.advance).draws = s.draws := rfl
@[simp] theorem State.advance_glyph (s : State) : (s.advance).glyph = s.glyph := rfl
@[simp] theorem State.advance_byteAt (s : State) (a' : Nat) : (s.advance).byteAt a' = s.byteAt a' := rfl
@[simp] theorem State.advance_memWf (s : State) : (s.advance).memWf = s.memWf := rfl
@[simp] theorem State.advance_reg (s : State) (r : Reg) : (s.advance).reg r = s.reg r := rfl
@[simp] theorem State.advance_key (s : State) (k : KeyIndex) : (s.advance).key k = s.key k := rfl

@[simp] theorem State.skip_pc (s : State) : (s.skip).pc = s.pc + 2 := rfl
@[simp] theorem State.skip_v (s : State) : (s.skip).v = s.v := rfl
@[simp] theorem State.skip_i (s : State) : (s.skip).i = s.i := rfl
@[simp] theorem State.skip_stack (s : State) : (s.skip).stack = s.stack := rfl
@[simp] theorem State.skip_sp (s : State) : (s.skip).sp = s.sp := rfl
@[simp] theorem State.skip_dt (s : State) : (s.skip).dt = s.dt := rfl
@[simp] theorem State.skip_st (s : State) : (s.skip).st = s.st := rfl
@[simp] theorem State.skip_keys (s : State) : (s.skip).keys = s.keys := rfl
@[simp] theorem State.skip_fb (s : State) : (s.skip).fb = s.fb := rfl
@[simp] theorem State.skip_mem (s : State) : (s.skip).mem = s.mem := rfl
@[simp] theorem State.skip_faultCause (s : State) : (s.skip).faultCause = s.faultCause := rfl
@[simp] theorem State.skip_faultIr (s : State) : (s.skip).faultIr = s.faultIr := rfl
@[simp] theorem State.skip_faultInfo (s : State) : (s.skip).faultInfo = s.faultInfo := rfl
@[simp] theorem State.skip_draws (s : State) : (s.skip).draws = s.draws := rfl
@[simp] theorem State.skip_glyph (s : State) : (s.skip).glyph = s.glyph := rfl
@[simp] theorem State.skip_byteAt (s : State) (a' : Nat) : (s.skip).byteAt a' = s.byteAt a' := rfl
@[simp] theorem State.skip_memWf (s : State) : (s.skip).memWf = s.memWf := rfl
@[simp] theorem State.skip_reg (s : State) (r : Reg) : (s.skip).reg r = s.reg r := rfl
@[simp] theorem State.skip_key (s : State) (k : KeyIndex) : (s.skip).key k = s.key k := rfl

@[simp] theorem State.setI_pc (s : State) (a : Word) : (s.setI a).pc = s.pc := rfl
@[simp] theorem State.setI_v (s : State) (a : Word) : (s.setI a).v = s.v := rfl
@[simp] theorem State.setI_i (s : State) (a : Word) : (s.setI a).i = a := rfl
@[simp] theorem State.setI_stack (s : State) (a : Word) : (s.setI a).stack = s.stack := rfl
@[simp] theorem State.setI_sp (s : State) (a : Word) : (s.setI a).sp = s.sp := rfl
@[simp] theorem State.setI_dt (s : State) (a : Word) : (s.setI a).dt = s.dt := rfl
@[simp] theorem State.setI_st (s : State) (a : Word) : (s.setI a).st = s.st := rfl
@[simp] theorem State.setI_keys (s : State) (a : Word) : (s.setI a).keys = s.keys := rfl
@[simp] theorem State.setI_fb (s : State) (a : Word) : (s.setI a).fb = s.fb := rfl
@[simp] theorem State.setI_mem (s : State) (a : Word) : (s.setI a).mem = s.mem := rfl
@[simp] theorem State.setI_faultCause (s : State) (a : Word) : (s.setI a).faultCause = s.faultCause := rfl
@[simp] theorem State.setI_faultIr (s : State) (a : Word) : (s.setI a).faultIr = s.faultIr := rfl
@[simp] theorem State.setI_faultInfo (s : State) (a : Word) : (s.setI a).faultInfo = s.faultInfo := rfl
@[simp] theorem State.setI_draws (s : State) (a : Word) : (s.setI a).draws = s.draws := rfl
@[simp] theorem State.setI_glyph (s : State) (a : Word) : (s.setI a).glyph = s.glyph := rfl
@[simp] theorem State.setI_byteAt (s : State) (a : Word) (a' : Nat) : (s.setI a).byteAt a' = s.byteAt a' := rfl
@[simp] theorem State.setI_memWf (s : State) (a : Word) : (s.setI a).memWf = s.memWf := rfl
@[simp] theorem State.setI_reg (s : State) (a : Word) (r : Reg) : (s.setI a).reg r = s.reg r := rfl
@[simp] theorem State.setI_key (s : State) (a : Word) (k : KeyIndex) : (s.setI a).key k = s.key k := rfl

@[simp] theorem State.setDt_pc (s : State) (b : Byte) : (s.setDt b).pc = s.pc := rfl
@[simp] theorem State.setDt_v (s : State) (b : Byte) : (s.setDt b).v = s.v := rfl
@[simp] theorem State.setDt_i (s : State) (b : Byte) : (s.setDt b).i = s.i := rfl
@[simp] theorem State.setDt_stack (s : State) (b : Byte) : (s.setDt b).stack = s.stack := rfl
@[simp] theorem State.setDt_sp (s : State) (b : Byte) : (s.setDt b).sp = s.sp := rfl
@[simp] theorem State.setDt_dt (s : State) (b : Byte) : (s.setDt b).dt = b := rfl
@[simp] theorem State.setDt_st (s : State) (b : Byte) : (s.setDt b).st = s.st := rfl
@[simp] theorem State.setDt_keys (s : State) (b : Byte) : (s.setDt b).keys = s.keys := rfl
@[simp] theorem State.setDt_fb (s : State) (b : Byte) : (s.setDt b).fb = s.fb := rfl
@[simp] theorem State.setDt_mem (s : State) (b : Byte) : (s.setDt b).mem = s.mem := rfl
@[simp] theorem State.setDt_faultCause (s : State) (b : Byte) : (s.setDt b).faultCause = s.faultCause := rfl
@[simp] theorem State.setDt_faultIr (s : State) (b : Byte) : (s.setDt b).faultIr = s.faultIr := rfl
@[simp] theorem State.setDt_faultInfo (s : State) (b : Byte) : (s.setDt b).faultInfo = s.faultInfo := rfl
@[simp] theorem State.setDt_draws (s : State) (b : Byte) : (s.setDt b).draws = s.draws := rfl
@[simp] theorem State.setDt_glyph (s : State) (b : Byte) : (s.setDt b).glyph = s.glyph := rfl
@[simp] theorem State.setDt_byteAt (s : State) (b : Byte) (a' : Nat) : (s.setDt b).byteAt a' = s.byteAt a' := rfl
@[simp] theorem State.setDt_memWf (s : State) (b : Byte) : (s.setDt b).memWf = s.memWf := rfl
@[simp] theorem State.setDt_reg (s : State) (b : Byte) (r : Reg) : (s.setDt b).reg r = s.reg r := rfl
@[simp] theorem State.setDt_key (s : State) (b : Byte) (k : KeyIndex) : (s.setDt b).key k = s.key k := rfl

@[simp] theorem State.setSt_pc (s : State) (b : Byte) : (s.setSt b).pc = s.pc := rfl
@[simp] theorem State.setSt_v (s : State) (b : Byte) : (s.setSt b).v = s.v := rfl
@[simp] theorem State.setSt_i (s : State) (b : Byte) : (s.setSt b).i = s.i := rfl
@[simp] theorem State.setSt_stack (s : State) (b : Byte) : (s.setSt b).stack = s.stack := rfl
@[simp] theorem State.setSt_sp (s : State) (b : Byte) : (s.setSt b).sp = s.sp := rfl
@[simp] theorem State.setSt_dt (s : State) (b : Byte) : (s.setSt b).dt = s.dt := rfl
@[simp] theorem State.setSt_st (s : State) (b : Byte) : (s.setSt b).st = b := rfl
@[simp] theorem State.setSt_keys (s : State) (b : Byte) : (s.setSt b).keys = s.keys := rfl
@[simp] theorem State.setSt_fb (s : State) (b : Byte) : (s.setSt b).fb = s.fb := rfl
@[simp] theorem State.setSt_mem (s : State) (b : Byte) : (s.setSt b).mem = s.mem := rfl
@[simp] theorem State.setSt_faultCause (s : State) (b : Byte) : (s.setSt b).faultCause = s.faultCause := rfl
@[simp] theorem State.setSt_faultIr (s : State) (b : Byte) : (s.setSt b).faultIr = s.faultIr := rfl
@[simp] theorem State.setSt_faultInfo (s : State) (b : Byte) : (s.setSt b).faultInfo = s.faultInfo := rfl
@[simp] theorem State.setSt_draws (s : State) (b : Byte) : (s.setSt b).draws = s.draws := rfl
@[simp] theorem State.setSt_glyph (s : State) (b : Byte) : (s.setSt b).glyph = s.glyph := rfl
@[simp] theorem State.setSt_byteAt (s : State) (b : Byte) (a' : Nat) : (s.setSt b).byteAt a' = s.byteAt a' := rfl
@[simp] theorem State.setSt_memWf (s : State) (b : Byte) : (s.setSt b).memWf = s.memWf := rfl
@[simp] theorem State.setSt_reg (s : State) (b : Byte) (r : Reg) : (s.setSt b).reg r = s.reg r := rfl
@[simp] theorem State.setSt_key (s : State) (b : Byte) (k : KeyIndex) : (s.setSt b).key k = s.key k := rfl

@[simp] theorem State.takeFault_pc (s : State) (c : FaultCause) (ir info : Word) : (s.takeFault c ir info).pc = s.pc := rfl
@[simp] theorem State.takeFault_v (s : State) (c : FaultCause) (ir info : Word) : (s.takeFault c ir info).v = s.v := rfl
@[simp] theorem State.takeFault_i (s : State) (c : FaultCause) (ir info : Word) : (s.takeFault c ir info).i = s.i := rfl
@[simp] theorem State.takeFault_stack (s : State) (c : FaultCause) (ir info : Word) : (s.takeFault c ir info).stack = s.stack := rfl
@[simp] theorem State.takeFault_sp (s : State) (c : FaultCause) (ir info : Word) : (s.takeFault c ir info).sp = s.sp := rfl
@[simp] theorem State.takeFault_dt (s : State) (c : FaultCause) (ir info : Word) : (s.takeFault c ir info).dt = s.dt := rfl
@[simp] theorem State.takeFault_st (s : State) (c : FaultCause) (ir info : Word) : (s.takeFault c ir info).st = s.st := rfl
@[simp] theorem State.takeFault_keys (s : State) (c : FaultCause) (ir info : Word) : (s.takeFault c ir info).keys = s.keys := rfl
@[simp] theorem State.takeFault_fb (s : State) (c : FaultCause) (ir info : Word) : (s.takeFault c ir info).fb = s.fb := rfl
@[simp] theorem State.takeFault_mem (s : State) (c : FaultCause) (ir info : Word) : (s.takeFault c ir info).mem = s.mem := rfl
@[simp] theorem State.takeFault_faultCause (s : State) (c : FaultCause) (ir info : Word) : (s.takeFault c ir info).faultCause = c := rfl
@[simp] theorem State.takeFault_faultIr (s : State) (c : FaultCause) (ir info : Word) : (s.takeFault c ir info).faultIr = ir := rfl
@[simp] theorem State.takeFault_faultInfo (s : State) (c : FaultCause) (ir info : Word) : (s.takeFault c ir info).faultInfo = info := rfl
@[simp] theorem State.takeFault_draws (s : State) (c : FaultCause) (ir info : Word) : (s.takeFault c ir info).draws = s.draws := rfl
@[simp] theorem State.takeFault_glyph (s : State) (c : FaultCause) (ir info : Word) : (s.takeFault c ir info).glyph = s.glyph := rfl
@[simp] theorem State.takeFault_byteAt (s : State) (c : FaultCause) (ir info : Word) (a' : Nat) : (s.takeFault c ir info).byteAt a' = s.byteAt a' := rfl
@[simp] theorem State.takeFault_memWf (s : State) (c : FaultCause) (ir info : Word) : (s.takeFault c ir info).memWf = s.memWf := rfl
@[simp] theorem State.takeFault_reg (s : State) (c : FaultCause) (ir info : Word) (r : Reg) : (s.takeFault c ir info).reg r = s.reg r := rfl
@[simp] theorem State.takeFault_key (s : State) (c : FaultCause) (ir info : Word) (k : KeyIndex) : (s.takeFault c ir info).key k = s.key k := rfl

@[simp] theorem State.tick_pc (s : State) : (s.tick).pc = s.pc := rfl
@[simp] theorem State.tick_v (s : State) : (s.tick).v = s.v := rfl
@[simp] theorem State.tick_i (s : State) : (s.tick).i = s.i := rfl
@[simp] theorem State.tick_stack (s : State) : (s.tick).stack = s.stack := rfl
@[simp] theorem State.tick_sp (s : State) : (s.tick).sp = s.sp := rfl
@[simp] theorem State.tick_dt (s : State) : (s.tick).dt = countDown s.dt := rfl
@[simp] theorem State.tick_st (s : State) : (s.tick).st = countDown s.st := rfl
@[simp] theorem State.tick_keys (s : State) : (s.tick).keys = s.keys := rfl
@[simp] theorem State.tick_fb (s : State) : (s.tick).fb = s.fb := rfl
@[simp] theorem State.tick_mem (s : State) : (s.tick).mem = s.mem := rfl
@[simp] theorem State.tick_faultCause (s : State) : (s.tick).faultCause = s.faultCause := rfl
@[simp] theorem State.tick_faultIr (s : State) : (s.tick).faultIr = s.faultIr := rfl
@[simp] theorem State.tick_faultInfo (s : State) : (s.tick).faultInfo = s.faultInfo := rfl
@[simp] theorem State.tick_draws (s : State) : (s.tick).draws = s.draws := rfl
@[simp] theorem State.tick_glyph (s : State) : (s.tick).glyph = s.glyph := rfl
@[simp] theorem State.tick_byteAt (s : State) (a' : Nat) : (s.tick).byteAt a' = s.byteAt a' := rfl
@[simp] theorem State.tick_memWf (s : State) : (s.tick).memWf = s.memWf := rfl
@[simp] theorem State.tick_reg (s : State) (r : Reg) : (s.tick).reg r = s.reg r := rfl
@[simp] theorem State.tick_key (s : State) (k : KeyIndex) : (s.tick).key k = s.key k := rfl

@[simp] theorem State.setKey_pc (s : State) (k : KeyIndex) (p : Bool) : (s.setKey k p).pc = s.pc := rfl
@[simp] theorem State.setKey_v (s : State) (k : KeyIndex) (p : Bool) : (s.setKey k p).v = s.v := rfl
@[simp] theorem State.setKey_i (s : State) (k : KeyIndex) (p : Bool) : (s.setKey k p).i = s.i := rfl
@[simp] theorem State.setKey_stack (s : State) (k : KeyIndex) (p : Bool) : (s.setKey k p).stack = s.stack := rfl
@[simp] theorem State.setKey_sp (s : State) (k : KeyIndex) (p : Bool) : (s.setKey k p).sp = s.sp := rfl
@[simp] theorem State.setKey_dt (s : State) (k : KeyIndex) (p : Bool) : (s.setKey k p).dt = s.dt := rfl
@[simp] theorem State.setKey_st (s : State) (k : KeyIndex) (p : Bool) : (s.setKey k p).st = s.st := rfl
@[simp] theorem State.setKey_keys (s : State) (k : KeyIndex) (p : Bool) : (s.setKey k p).keys = s.keys.set k.val p k.isLt := rfl
@[simp] theorem State.setKey_fb (s : State) (k : KeyIndex) (p : Bool) : (s.setKey k p).fb = s.fb := rfl
@[simp] theorem State.setKey_mem (s : State) (k : KeyIndex) (p : Bool) : (s.setKey k p).mem = s.mem := rfl
@[simp] theorem State.setKey_faultCause (s : State) (k : KeyIndex) (p : Bool) : (s.setKey k p).faultCause = s.faultCause := rfl
@[simp] theorem State.setKey_faultIr (s : State) (k : KeyIndex) (p : Bool) : (s.setKey k p).faultIr = s.faultIr := rfl
@[simp] theorem State.setKey_faultInfo (s : State) (k : KeyIndex) (p : Bool) : (s.setKey k p).faultInfo = s.faultInfo := rfl
@[simp] theorem State.setKey_draws (s : State) (k : KeyIndex) (p : Bool) : (s.setKey k p).draws = s.draws := rfl
@[simp] theorem State.setKey_glyph (s : State) (k : KeyIndex) (p : Bool) : (s.setKey k p).glyph = s.glyph := rfl
@[simp] theorem State.setKey_byteAt (s : State) (k : KeyIndex) (p : Bool) (a' : Nat) : (s.setKey k p).byteAt a' = s.byteAt a' := rfl
@[simp] theorem State.setKey_memWf (s : State) (k : KeyIndex) (p : Bool) : (s.setKey k p).memWf = s.memWf := rfl
@[simp] theorem State.setKey_reg (s : State) (k : KeyIndex) (p : Bool) (r : Reg) : (s.setKey k p).reg r = s.reg r := rfl

@[simp] theorem State.skipIf_pc (s : State) (c : Bool) : (s.skipIf c).pc = if c then s.pc + 2 else s.pc := by cases c <;> rfl
@[simp] theorem State.skipIf_v (s : State) (c : Bool) : (s.skipIf c).v = s.v := by cases c <;> rfl
@[simp] theorem State.skipIf_i (s : State) (c : Bool) : (s.skipIf c).i = s.i := by cases c <;> rfl
@[simp] theorem State.skipIf_stack (s : State) (c : Bool) : (s.skipIf c).stack = s.stack := by cases c <;> rfl
@[simp] theorem State.skipIf_sp (s : State) (c : Bool) : (s.skipIf c).sp = s.sp := by cases c <;> rfl
@[simp] theorem State.skipIf_dt (s : State) (c : Bool) : (s.skipIf c).dt = s.dt := by cases c <;> rfl
@[simp] theorem State.skipIf_st (s : State) (c : Bool) : (s.skipIf c).st = s.st := by cases c <;> rfl
@[simp] theorem State.skipIf_keys (s : State) (c : Bool) : (s.skipIf c).keys = s.keys := by cases c <;> rfl
@[simp] theorem State.skipIf_fb (s : State) (c : Bool) : (s.skipIf c).fb = s.fb := by cases c <;> rfl
@[simp] theorem State.skipIf_mem (s : State) (c : Bool) : (s.skipIf c).mem = s.mem := by cases c <;> rfl
@[simp] theorem State.skipIf_faultCause (s : State) (c : Bool) : (s.skipIf c).faultCause = s.faultCause := by cases c <;> rfl
@[simp] theorem State.skipIf_faultIr (s : State) (c : Bool) : (s.skipIf c).faultIr = s.faultIr := by cases c <;> rfl
@[simp] theorem State.skipIf_faultInfo (s : State) (c : Bool) : (s.skipIf c).faultInfo = s.faultInfo := by cases c <;> rfl
@[simp] theorem State.skipIf_draws (s : State) (c : Bool) : (s.skipIf c).draws = s.draws := by cases c <;> rfl
@[simp] theorem State.skipIf_glyph (s : State) (c : Bool) : (s.skipIf c).glyph = s.glyph := by cases c <;> rfl
@[simp] theorem State.skipIf_byteAt (s : State) (c : Bool) (a' : Nat) : (s.skipIf c).byteAt a' = s.byteAt a' := by cases c <;> rfl
@[simp] theorem State.skipIf_memWf (s : State) (c : Bool) : (s.skipIf c).memWf = s.memWf := by cases c <;> rfl
@[simp] theorem State.skipIf_reg (s : State) (c : Bool) (r : Reg) : (s.skipIf c).reg r = s.reg r := by cases c <;> rfl

@[simp] theorem State.draw_pc (s : State) : s.draw.2.pc = s.pc := rfl
@[simp] theorem State.draw_v (s : State) : s.draw.2.v = s.v := rfl
@[simp] theorem State.draw_i (s : State) : s.draw.2.i = s.i := rfl
@[simp] theorem State.draw_stack (s : State) : s.draw.2.stack = s.stack := rfl
@[simp] theorem State.draw_sp (s : State) : s.draw.2.sp = s.sp := rfl
@[simp] theorem State.draw_dt (s : State) : s.draw.2.dt = s.dt := rfl
@[simp] theorem State.draw_st (s : State) : s.draw.2.st = s.st := rfl
@[simp] theorem State.draw_keys (s : State) : s.draw.2.keys = s.keys := rfl
@[simp] theorem State.draw_fb (s : State) : s.draw.2.fb = s.fb := rfl
@[simp] theorem State.draw_mem (s : State) : s.draw.2.mem = s.mem := rfl
@[simp] theorem State.draw_faultCause (s : State) : s.draw.2.faultCause = s.faultCause := rfl
@[simp] theorem State.draw_faultIr (s : State) : s.draw.2.faultIr = s.faultIr := rfl
@[simp] theorem State.draw_faultInfo (s : State) : s.draw.2.faultInfo = s.faultInfo := rfl
@[simp] theorem State.draw_draws (s : State) : s.draw.2.draws = s.draws + 1 := rfl
@[simp] theorem State.draw_glyph (s : State) : s.draw.2.glyph = s.glyph := rfl
@[simp] theorem State.draw_byteAt (s : State) (a' : Nat) : s.draw.2.byteAt a' = s.byteAt a' := rfl
@[simp] theorem State.draw_memWf (s : State) : s.draw.2.memWf = s.memWf := rfl
@[simp] theorem State.draw_reg (s : State) (r : Reg) : s.draw.2.reg r = s.reg r := rfl
@[simp] theorem State.draw_key (s : State) (k : KeyIndex) : s.draw.2.key k = s.key k := rfl
@[simp] theorem State.draw_byte (s : State) : s.draw.1 = Config.rnd s.draws := rfl

@[simp] theorem State.putBytes_pc (s : State) (a : Nat) (bs : List Byte) : (s.putBytes a bs).pc = s.pc := rfl
@[simp] theorem State.putBytes_v (s : State) (a : Nat) (bs : List Byte) : (s.putBytes a bs).v = s.v := rfl
@[simp] theorem State.putBytes_i (s : State) (a : Nat) (bs : List Byte) : (s.putBytes a bs).i = s.i := rfl
@[simp] theorem State.putBytes_stack (s : State) (a : Nat) (bs : List Byte) : (s.putBytes a bs).stack = s.stack := rfl
@[simp] theorem State.putBytes_sp (s : State) (a : Nat) (bs : List Byte) : (s.putBytes a bs).sp = s.sp := rfl
@[simp] theorem State.putBytes_dt (s : State) (a : Nat) (bs : List Byte) : (s.putBytes a bs).dt = s.dt := rfl
@[simp] theorem State.putBytes_st (s : State) (a : Nat) (bs : List Byte) : (s.putBytes a bs).st = s.st := rfl
@[simp] theorem State.putBytes_keys (s : State) (a : Nat) (bs : List Byte) : (s.putBytes a bs).keys = s.keys := rfl
@[simp] theorem State.putBytes_fb (s : State) (a : Nat) (bs : List Byte) : (s.putBytes a bs).fb = s.fb := rfl
@[simp] theorem State.putBytes_faultCause (s : State) (a : Nat) (bs : List Byte) : (s.putBytes a bs).faultCause = s.faultCause := rfl
@[simp] theorem State.putBytes_faultIr (s : State) (a : Nat) (bs : List Byte) : (s.putBytes a bs).faultIr = s.faultIr := rfl
@[simp] theorem State.putBytes_faultInfo (s : State) (a : Nat) (bs : List Byte) : (s.putBytes a bs).faultInfo = s.faultInfo := rfl
@[simp] theorem State.putBytes_draws (s : State) (a : Nat) (bs : List Byte) : (s.putBytes a bs).draws = s.draws := rfl
@[simp] theorem State.putBytes_glyph (s : State) (a : Nat) (bs : List Byte) : (s.putBytes a bs).glyph = s.glyph := rfl
@[simp] theorem State.putBytes_mem (s : State) (a : Nat) (bs : List Byte) :
    (s.putBytes a bs).mem = writeBytes s.glyph s.mem a bs := rfl
@[simp] theorem State.putBytes_reg (s : State) (a : Nat) (bs : List Byte) (r : Reg) : (s.putBytes a bs).reg r = s.reg r := rfl
@[simp] theorem State.putBytes_key (s : State) (a : Nat) (bs : List Byte) (k : KeyIndex) : (s.putBytes a bs).key k = s.key k := rfl

@[simp] theorem State.resetWith_pc (g : GlyphTable) : (State.resetWith g).pc = State.reset.pc := rfl
@[simp] theorem State.resetWith_v (g : GlyphTable) : (State.resetWith g).v = State.reset.v := rfl
@[simp] theorem State.resetWith_i (g : GlyphTable) : (State.resetWith g).i = State.reset.i := rfl
@[simp] theorem State.resetWith_stack (g : GlyphTable) : (State.resetWith g).stack = State.reset.stack := rfl
@[simp] theorem State.resetWith_sp (g : GlyphTable) : (State.resetWith g).sp = State.reset.sp := rfl
@[simp] theorem State.resetWith_dt (g : GlyphTable) : (State.resetWith g).dt = State.reset.dt := rfl
@[simp] theorem State.resetWith_st (g : GlyphTable) : (State.resetWith g).st = State.reset.st := rfl
@[simp] theorem State.resetWith_keys (g : GlyphTable) : (State.resetWith g).keys = State.reset.keys := rfl
@[simp] theorem State.resetWith_fb (g : GlyphTable) : (State.resetWith g).fb = State.reset.fb := rfl
@[simp] theorem State.resetWith_mem (g : GlyphTable) : (State.resetWith g).mem = State.reset.mem := rfl
@[simp] theorem State.resetWith_faultCause (g : GlyphTable) : (State.resetWith g).faultCause = State.reset.faultCause := rfl
@[simp] theorem State.resetWith_faultIr (g : GlyphTable) : (State.resetWith g).faultIr = State.reset.faultIr := rfl
@[simp] theorem State.resetWith_faultInfo (g : GlyphTable) : (State.resetWith g).faultInfo = State.reset.faultInfo := rfl
@[simp] theorem State.resetWith_draws (g : GlyphTable) : (State.resetWith g).draws = State.reset.draws := rfl
@[simp] theorem State.resetWith_glyph (g : GlyphTable) : (State.resetWith g).glyph = g := rfl

@[simp] theorem State.hostReset_pc (s : State) : s.hostReset.pc = State.reset.pc := rfl
@[simp] theorem State.hostReset_v (s : State) : s.hostReset.v = State.reset.v := rfl
@[simp] theorem State.hostReset_i (s : State) : s.hostReset.i = State.reset.i := rfl
@[simp] theorem State.hostReset_stack (s : State) : s.hostReset.stack = State.reset.stack := rfl
@[simp] theorem State.hostReset_sp (s : State) : s.hostReset.sp = State.reset.sp := rfl
@[simp] theorem State.hostReset_dt (s : State) : s.hostReset.dt = State.reset.dt := rfl
@[simp] theorem State.hostReset_st (s : State) : s.hostReset.st = State.reset.st := rfl
@[simp] theorem State.hostReset_keys (s : State) : s.hostReset.keys = State.reset.keys := rfl
@[simp] theorem State.hostReset_fb (s : State) : s.hostReset.fb = State.reset.fb := rfl
@[simp] theorem State.hostReset_mem (s : State) : s.hostReset.mem = State.reset.mem := rfl
@[simp] theorem State.hostReset_faultCause (s : State) : s.hostReset.faultCause = State.reset.faultCause := rfl
@[simp] theorem State.hostReset_faultIr (s : State) : s.hostReset.faultIr = State.reset.faultIr := rfl
@[simp] theorem State.hostReset_faultInfo (s : State) : s.hostReset.faultInfo = State.reset.faultInfo := rfl
@[simp] theorem State.hostReset_draws (s : State) : s.hostReset.draws = s.draws := rfl
@[simp] theorem State.hostReset_glyph (s : State) : s.hostReset.glyph = s.glyph := rfl

/-- Reading a register after a register write (R21: no register is hardwired). -/
@[simp] theorem State.setReg_reg (s : State) (x r : Reg) (b : Byte) :
    (s.setReg x b).reg r = if r = x then b else s.reg r := by
  unfold State.reg State.setReg
  by_cases h : r = x
  · subst h; simp
  · have hne : ¬ x.val = r.val := fun e => h (Fin.ext e.symm)
    simp [h, hne]

/-- Reading a key latch after `SET_KEY` (R186). -/
@[simp] theorem State.setKey_key (s : State) (k j : KeyIndex) (p : Bool) :
    (s.setKey k p).key j = if j = k then p else s.key j := by
  unfold State.key State.setKey
  by_cases h : j = k
  · subst h; simp
  · have hne : ¬ k.val = j.val := fun e => h (Fin.ext e.symm)
    simp [h, hne]

/-- Two states with equal fields are equal. -/
theorem State.ext_fields {s t : State} (hpc : s.pc = t.pc) (hv : s.v = t.v) (hi : s.i = t.i)
    (hstack : s.stack = t.stack) (hsp : s.sp = t.sp) (hdt : s.dt = t.dt) (hst : s.st = t.st) (hkeys : s.keys = t.keys)
    (hfb : s.fb = t.fb) (hmem : s.mem = t.mem) (hc : s.faultCause = t.faultCause) (hir : s.faultIr = t.faultIr)
    (hinfo : s.faultInfo = t.faultInfo) (hg : s.glyph = t.glyph) (hd : s.draws = t.draws) : s = t := by
  cases s; cases t; simp_all

/-- A state is faulted exactly when its cause is a fault (R33). -/
theorem State.faulted_iff (s : State) : s.faulted = true ↔ s.faultCause ≠ .noFault := by simp [State.faulted]

/-- A state is not faulted exactly when its cause is none (R33). -/
theorem State.not_faulted_iff (s : State) : s.faulted = false ↔ s.faultCause = .noFault := by simp [State.faulted]

end Sys2Proof.Machine
end

