-- ==== Sys2Proof/Laws/Ops.lean ====
section
/-! SUPPORT. One lemma per shared operation over registers, stack, keys and the fetch, saying once everything it can
answer. -/

namespace Sys2Proof.Machine

/-! ### Flags -/

/-- A flag write stores 0x00 or 0x01 (R22). -/
theorem flagByte_cases (f : Bool) : (f = true ∧ flagByte f = 1) ∨ (f = false ∧ flagByte f = 0) := by
  cases f <;> simp [flagByte]

@[simp] theorem State.setFlag_reg (s : State) (f : Bool) (r : Reg) :
    (s.setFlag f).reg r = if r = VF then flagByte f else s.reg r := by
  simp [State.setFlag]

/-- The registers after a result and a flag: the flag stands where both go to `VF` (R130). -/
@[simp] theorem State.setRegFlag_reg (s : State) (x r : Reg) (b : Byte) (f : Bool) :
    (s.setRegFlag x b f).reg r = if r = VF then flagByte f else if r = x then b else s.reg r := by
  simp [State.setRegFlag]

/-- A flag write changes nothing but the register file. -/
theorem State.setFlag_frame (s : State) (f : Bool) : s.setFlag f = { s with v := (s.setFlag f).v } := rfl

/-- A result and flag write changes nothing but the register file. -/
theorem State.setRegFlag_frame (s : State) (x : Reg) (b : Byte) (f : Bool) :
    s.setRegFlag x b f = { s with v := (s.setRegFlag x b f).v } := rfl

/-! ### Blocks of registers -/

/-- The register file after a block load (R155). -/
theorem getElem_fillRegs (v : Vector Byte 16) (i : Nat) (bs : List Byte) (k : Nat) (hk : k < 16) :
    (fillRegs v i bs)[k] = if h : i ≤ k ∧ k < i + bs.length then bs[k - i]'(by omega) else v[k] := by
  induction bs generalizing v i with
  | nil => simp [fillRegs]
  | cons b bs ih =>
    unfold fillRegs
    rw [ih]
    by_cases hlt : i < 16
    · simp only [hlt, dif_pos]
      by_cases h1 : i + 1 ≤ k ∧ k < i + 1 + bs.length
      · have h2 : i ≤ k ∧ k < i + (b :: bs).length := by simp only [List.length_cons]; omega
        rw [dif_pos h1, dif_pos h2]
        have he : k - i = (k - (i + 1)) + 1 := by omega
        simp only [he, List.getElem_cons_succ]
      · rw [dif_neg h1]
        by_cases he : i = k
        · subst he; simp
        · have h2 : ¬ (i ≤ k ∧ k < i + (b :: bs).length) := by simp only [List.length_cons]; omega
          rw [dif_neg h2]
          exact Vector.getElem_set_ne hlt hk he
    · have h1 : ¬ (i + 1 ≤ k ∧ k < i + 1 + bs.length) := by omega
      have h2 : ¬ (i ≤ k ∧ k < i + (b :: bs).length) := by omega
      rw [dif_neg h1, dif_neg h2]; simp [hlt]

@[simp] theorem length_regsUpTo (s : State) (x : Reg) : (s.regsUpTo x).length = x.val + 1 := by
  simp [State.regsUpTo]

/-- The bytes of a block store are the registers in order (R154). -/
theorem getElem_regsUpTo (s : State) (x : Reg) (k : Nat) (hk : k < (s.regsUpTo x).length) :
    (s.regsUpTo x)[k] = s.v[k]'(by simp only [length_regsUpTo] at hk; omega) := by
  simp [State.regsUpTo]

/-! ### Stack -/

/-- Everything a push can answer (R103). -/
theorem push_cases (s : State) (a : Word) :
    (∃ (h : s.sp.val < 16) (h' : s.sp.val + 1 < 17),
      s.push a = some { s with stack := s.stack.set s.sp.val a h, sp := ⟨s.sp.val + 1, h'⟩ }) ∨
    (s.sp.val = 16 ∧ s.push a = none) := by
  unfold State.push
  by_cases h : s.sp.val < 16
  · exact Or.inl ⟨h, by omega, by rw [dif_pos h]⟩
  · exact Or.inr ⟨by omega, by rw [dif_neg h]⟩

/-- Everything a pop can answer (R101). -/
theorem pop_cases (s : State) :
    (∃ (h : s.sp.val - 1 < 16) (h' : s.sp.val - 1 < 17), 0 < s.sp.val ∧
      s.pop = some (s.stack[s.sp.val - 1], { s with sp := ⟨s.sp.val - 1, h'⟩ })) ∨
    (s.sp.val = 0 ∧ s.pop = none) := by
  unfold State.pop
  by_cases h : 0 < s.sp.val
  · exact Or.inl ⟨by omega, by omega, h, by rw [dif_pos h]⟩
  · exact Or.inr ⟨by omega, by rw [dif_neg h]⟩

/-! ### Keys -/

/-- Everything the key scan can answer (R172). -/
theorem lowestPressed_cases (s : State) :
    (∃ k, s.lowestPressed = some k ∧ s.key k = true ∧ ∀ j, j < k → s.key j = false) ∨
    (s.lowestPressed = none ∧ ∀ k, s.key k = false) := by
  unfold State.lowestPressed
  cases h : (List.finRange 16).find? s.key with
  | none =>
    rw [List.find?_eq_none] at h
    exact Or.inr ⟨rfl, fun k => by simpa using h k (List.mem_finRange k)⟩
  | some k =>
    refine Or.inl ⟨k, rfl, ?_, ?_⟩
    · exact List.find?_some h
    · intro j hj
      rw [List.find?_eq_some_iff_getElem] at h
      obtain ⟨_, i, hi, hik, hbefore⟩ := h
      have hki : k.val = i := by rw [← hik]; simp
      have := hbefore j.val (by rw [← hki]; exact hj)
      simpa using this

/-- Everything a register names as a key (R176). -/
theorem keyOperand_cases (v : Byte) :
    (∃ k : KeyIndex, k.val = v.toNat ∧ keyOperand v = some k) ∨ (16 ≤ v.toNat ∧ keyOperand v = none) := by
  unfold keyOperand
  by_cases h : v.toNat < 16
  · exact Or.inl ⟨⟨v.toNat, h⟩, rfl, by rw [dif_pos h]⟩
  · exact Or.inr ⟨by omega, by rw [dif_neg h]⟩

/-! ### Faults and the fetch -/

/-- The detail of an addressing fault as a number (R200). -/
theorem addrInfo_toNat (a : Word) : (addrInfo a).toNat = max a.toNat 4096 := by
  have := a.isLt
  simp only [addrInfo, Config.memSize, BitVec.toNat_ofNat]
  omega

/-- Everything the fetch can answer (R56). -/
theorem fetch_cases (s : State) :
    (s.pc.toNat ≤ 4094 ∧
      s.fetch = some (s.byteAt s.pc.toNat ++ s.byteAt (s.pc.toNat + 1))) ∨
    (4095 ≤ s.pc.toNat ∧ s.fetch = none) := by
  unfold State.fetch
  rcases memRead_cases s s.pc.toNat 2 with ⟨hr, he⟩ | ⟨hr, he⟩
  · exact Or.inl ⟨by omega, by rw [he]; rfl⟩
  · exact Or.inr ⟨by omega, by rw [he]⟩

end Sys2Proof.Machine
end

