-- ==== Sys2Proof/Laws/Display.lean ====
section
/-! SUPPORT. The blitter's loops (45_display.md R161): which pixels they flip, and when they report a collision. No
pixel is visited twice (R161 corner case d), so a pixel's old value is its value before the instruction. -/

namespace Sys2Proof.Machine

@[simp] theorem pixel_clearFb (x : Fin 64) (y : Fin 32) : pixel clearFb x y = false := by
  simp [pixel, clearFb]

/-- XORing one pixel flips it and no other. -/
theorem pixel_togglePixel (f : Framebuffer) (x px : Fin 64) (y py : Fin 32) :
    pixel (togglePixel f x y) px py = if px = x ∧ py = y then !pixel f px py else pixel f px py := by
  unfold pixel togglePixel
  by_cases hy : py = y
  · subst hy
    have hx := px.isLt
    by_cases hxx : px = x
    · subst hxx; simp
    · have hne : ¬ px.val = x.val := fun e => hxx (Fin.ext e)
      simp [hxx, hne]
  · have hne : ¬ y.val = py.val := fun e => hy (Fin.ext e.symm)
    simp [hy, hne]

/-- The pixel the first `k` columns of a row byte hit. -/
def columnHit (cx cy : Nat) (b : Byte) (k : Nat) (px : Fin 64) (py : Fin 32) : Prop :=
  py = Fin.ofNat 32 cy ∧ ∃ c, c < k ∧ spriteBit b c = true ∧ px = Fin.ofNat 64 (cx + c)

/-- One more column hits one more pixel, if its sprite bit is 1. -/
theorem columnHit_succ (cx cy : Nat) (b : Byte) (k : Nat) (px : Fin 64) (py : Fin 32) :
    columnHit cx cy b (k + 1) px py ↔
      columnHit cx cy b k px py ∨
        (spriteBit b k = true ∧ px = Fin.ofNat 64 (cx + k) ∧ py = Fin.ofNat 32 cy) := by
  constructor
  · rintro ⟨hy, c, hc, hb, hx⟩
    by_cases hck : c = k
    · subst hck; exact Or.inr ⟨hb, hx, hy⟩
    · exact Or.inl ⟨hy, c, by omega, hb, hx⟩
  · rintro (⟨hy, c, hc, hb, hx⟩ | ⟨hb, hx, hy⟩)
    · exact ⟨hy, c, by omega, hb, hx⟩
    · exact ⟨hy, k, by omega, hb, hx⟩

/-- Column `k` is not among the first `k` (8 columns < 64). -/
theorem not_columnHit_self (cx cy : Nat) (b : Byte) {k : Nat} (hk : k < 64) :
    ¬ columnHit cx cy b k (Fin.ofNat 64 (cx + k)) (Fin.ofNat 32 cy) := by
  rintro ⟨_, c, hc, _, hx⟩
  have := congrArg Fin.val hx
  simp only [Fin.ofNat] at this
  omega

/-- What a row does to the framebuffer and the collision. -/
theorem drawColumns_spec (cx cy : Nat) (b : Byte) (k : Nat) (hk : k ≤ 64) (acc : Framebuffer × Bool) :
    (∀ px py, columnHit cx cy b k px py → pixel (drawColumns cx cy b k acc).1 px py = !pixel acc.1 px py) ∧
    (∀ px py, ¬ columnHit cx cy b k px py → pixel (drawColumns cx cy b k acc).1 px py = pixel acc.1 px py) ∧
    ((drawColumns cx cy b k acc).2 = true ↔
      acc.2 = true ∨ ∃ px py, columnHit cx cy b k px py ∧ pixel acc.1 px py = true) := by
  induction k with
  | zero =>
    have hno : ∀ px py, ¬ columnHit cx cy b 0 px py := fun _ _ ⟨_, c, hc, _⟩ => absurd hc (by omega)
    exact ⟨fun px py h => absurd h (hno px py), fun _ _ _ => rfl,
      ⟨Or.inl, fun h => h.elim id fun ⟨px, py, hh, _⟩ => absurd hh (hno px py)⟩⟩
  | succ k ih =>
    obtain ⟨ihit, imiss, icol⟩ := ih (by omega)
    by_cases hb : spriteBit b k = true
    · have hself := not_columnHit_self cx cy b (k := k) (by omega)
      simp only [drawColumns, hb, if_true, drawPixel]
      refine ⟨fun px py h => ?_, fun px py h => ?_, ?_⟩
      · rw [columnHit_succ] at h
        rw [pixel_togglePixel]
        by_cases he : px = Fin.ofNat 64 (cx + k) ∧ py = Fin.ofNat 32 cy
        · rw [if_pos he, he.1, he.2, imiss _ _ hself]
        · rw [if_neg he]
          exact ihit px py (h.resolve_right fun hh => he ⟨hh.2.1, hh.2.2⟩)
      · rw [columnHit_succ] at h
        rw [pixel_togglePixel, if_neg fun he => h (Or.inr ⟨hb, he.1, he.2⟩)]
        exact imiss px py fun hh => h (Or.inl hh)
      · rw [Bool.or_eq_true, icol, imiss _ _ hself]
        constructor
        · rintro ((h | ⟨px, py, hh, hp⟩) | h)
          · exact Or.inl h
          · exact Or.inr ⟨px, py, (columnHit_succ ..).2 (Or.inl hh), hp⟩
          · exact Or.inr ⟨_, _, (columnHit_succ ..).2 (Or.inr ⟨hb, rfl, rfl⟩), h⟩
        · rintro (h | ⟨px, py, hh, hp⟩)
          · exact Or.inl (Or.inl h)
          · rcases (columnHit_succ ..).1 hh with hh | ⟨_, rfl, rfl⟩
            · exact Or.inl (Or.inr ⟨px, py, hh, hp⟩)
            · exact Or.inr hp
    · have hiff : ∀ px py, columnHit cx cy b (k + 1) px py ↔ columnHit cx cy b k px py := fun px py =>
        (columnHit_succ ..).trans (or_iff_left fun h => hb h.1)
      simp only [drawColumns, hb, Bool.false_eq_true, if_false, hiff]
      exact ⟨ihit, imiss, icol⟩

/-- The pixel the sprite rows `bs` hit, the first of them at row `cy`. -/
def spriteHit (cx cy : Nat) (bs : List Byte) (px : Fin 64) (py : Fin 32) : Prop :=
  ∃ (r : Nat) (h : r < bs.length), columnHit cx (cy + r) bs[r] 8 px py

/-- The first row hits its own pixels, the other rows theirs, one row further down. -/
theorem spriteHit_cons (cx cy : Nat) (b : Byte) (bs : List Byte) (px : Fin 64) (py : Fin 32) :
    spriteHit cx cy (b :: bs) px py ↔ columnHit cx cy b 8 px py ∨ spriteHit cx (cy + 1) bs px py := by
  constructor
  · rintro ⟨r, h, hh⟩
    cases r with
    | zero => exact Or.inl hh
    | succ r =>
      refine Or.inr ⟨r, by simpa using h, ?_⟩
      rw [show cy + 1 + r = cy + (r + 1) by omega]; exact hh
  · rintro (hh | ⟨r, h, hh⟩)
    · exact ⟨0, by simp, hh⟩
    · refine ⟨r + 1, by simpa using h, ?_⟩
      rw [show cy + (r + 1) = cy + 1 + r by omega]; exact hh

/-- The first row's pixels are none of the other rows' (at most 15 rows < 32). -/
theorem not_spriteHit_of_columnHit {cx cy : Nat} {b : Byte} {bs : List Byte} (hl : bs.length < 32) {px : Fin 64}
    {py : Fin 32} (h : columnHit cx cy b 8 px py) : ¬ spriteHit cx (cy + 1) bs px py := by
  rintro ⟨r, hr, hy, _⟩
  have := congrArg Fin.val (h.1.symm.trans hy)
  simp only [Fin.ofNat] at this
  omega

/-- What a sprite does to the framebuffer and the collision. -/
theorem drawRows_spec (cx cy : Nat) (bs : List Byte) (hl : bs.length ≤ 32) (acc : Framebuffer × Bool) :
    (∀ px py, spriteHit cx cy bs px py → pixel (drawRows cx cy bs acc).1 px py = !pixel acc.1 px py) ∧
    (∀ px py, ¬ spriteHit cx cy bs px py → pixel (drawRows cx cy bs acc).1 px py = pixel acc.1 px py) ∧
    ((drawRows cx cy bs acc).2 = true ↔
      acc.2 = true ∨ ∃ px py, spriteHit cx cy bs px py ∧ pixel acc.1 px py = true) := by
  induction bs generalizing cy acc with
  | nil =>
    have hno : ∀ px py, ¬ spriteHit cx cy [] px py := fun _ _ ⟨r, h, _⟩ => absurd h (by simp)
    exact ⟨fun px py h => absurd h (hno px py), fun _ _ _ => rfl,
      ⟨Or.inl, fun h => h.elim id fun ⟨px, py, hh, _⟩ => absurd hh (hno px py)⟩⟩
  | cons b bs ih =>
    have hl' : bs.length < 32 := by simpa using hl
    obtain ⟨ihit, imiss, icol⟩ := ih (cy + 1) (by omega) (drawColumns cx cy b 8 acc)
    obtain ⟨chit, cmiss, ccol⟩ := drawColumns_spec cx cy b 8 (by omega) acc
    simp only [drawRows]
    refine ⟨fun px py h => ?_, fun px py h => ?_, ?_⟩
    · by_cases hc : columnHit cx cy b 8 px py
      · rw [imiss px py (not_spriteHit_of_columnHit hl' hc), chit px py hc]
      · rw [ihit px py (((spriteHit_cons ..).1 h).resolve_left hc), cmiss px py hc]
    · rw [spriteHit_cons] at h
      rw [imiss px py fun hh => h (Or.inr hh), cmiss px py fun hh => h (Or.inl hh)]
    · rw [icol, ccol]
      constructor
      · rintro ((h | ⟨px, py, hh, hp⟩) | ⟨px, py, hh, hp⟩)
        · exact Or.inl h
        · exact Or.inr ⟨px, py, (spriteHit_cons ..).2 (Or.inl hh), hp⟩
        · refine Or.inr ⟨px, py, (spriteHit_cons ..).2 (Or.inr hh), ?_⟩
          rwa [cmiss px py fun hc => not_spriteHit_of_columnHit hl' hc hh] at hp
      · rintro (h | ⟨px, py, hh, hp⟩)
        · exact Or.inl (Or.inl h)
        · by_cases hc : columnHit cx cy b 8 px py
          · exact Or.inl (Or.inr ⟨px, py, hc, hp⟩)
          · refine Or.inr ⟨px, py, ((spriteHit_cons ..).1 hh).resolve_left hc, ?_⟩
            rw [cmiss px py hc]; exact hp

/-- Two framebuffers with equal pixels are equal. -/
theorem framebuffer_ext {f g : Framebuffer} (h : ∀ x y, pixel f x y = pixel g x y) : f = g := by
  apply Vector.ext
  intro y hy
  apply BitVec.eq_of_getLsbD_eq
  intro x hx
  exact h ⟨x, hx⟩ ⟨y, hy⟩

end Sys2Proof.Machine
end

