-- ==== Sys2Proof/Laws/PerInstr.lean ====
section
/-! SUPPORT. Laws that hold of every instruction, one lemma per constructor. -/

namespace Sys2Proof.Laws

/-! ### The words the encoder's formats make, under a row's mask (30_encoding.md R73, R75) -/

/-- A mask and a word cut at the same place meet part by part. -/
theorem append_and {m n : Nat} (a c : BitVec m) (b d : BitVec n) : (a ++ b) &&& (c ++ d) = (a &&& c) ++ (b &&& d) := by
  apply BitVec.eq_of_getLsbD_eq
  intro k _
  by_cases h : k < n <;> simp [BitVec.getLsbD_append, h]

theorem and_F (v : BitVec 4) : v &&& 0xF#4 = v := by revert v; decide

theorem and_FF (v : Byte) : v &&& 0xFF#8 = v := by revert v; decide

theorem wordNNN_masked (f : BitVec 4) (nnn : Imm12) : wordNNN f nnn &&& 0xF000 = f ++ (0 : BitVec 12) := by
  rw [show (0xF000 : Word) = 0xF#4 ++ 0#12 from rfl, wordNNN, append_and]
  simp [and_F]

theorem wordXNN_masked (f : BitVec 4) (x : Reg) (nn : Byte) : wordXNN f x nn &&& 0xF000 = f ++ 0#4 ++ 0#8 := by
  rw [show (0xF000 : Word) = 0xF#4 ++ 0#4 ++ 0#8 from rfl, wordXNN, append_and, append_and]
  simp [and_F]

theorem wordX_masked (f : BitVec 4) (x : Reg) (nn : Byte) : wordXNN f x nn &&& 0xF0FF = f ++ 0#4 ++ nn := by
  rw [show (0xF0FF : Word) = 0xF#4 ++ 0#4 ++ 0xFF#8 from rfl, wordXNN, append_and, append_and]
  simp [and_F, and_FF]

theorem wordXY_masked (f : BitVec 4) (x y : Reg) (n : BitVec 4) :
    wordXYN f x y n &&& 0xF00F = f ++ 0#4 ++ 0#4 ++ n := by
  rw [show (0xF00F : Word) = 0xF#4 ++ 0#4 ++ 0#4 ++ 0xF#4 from rfl, wordXYN, append_and, append_and, append_and]
  simp [and_F]

theorem wordXYN_masked (f : BitVec 4) (x y : Reg) (n : BitVec 4) :
    wordXYN f x y n &&& 0xF000 = f ++ 0#4 ++ 0#4 ++ 0#4 := by
  rw [show (0xF000 : Word) = 0xF#4 ++ 0#4 ++ 0#4 ++ 0#4 from rfl, wordXYN, append_and, append_and, append_and]
  simp [and_F]

/-- The encoder's word is the instruction of the row of R75 that the instruction is. -/
def EncodeMatchesRow.Statement (i : Instr) : Prop :=
  ∃ row, row ∈ opcodeMap ∧ row.number = rowNumber i ∧ rowMatches row (encode i) = true

theorem EncodeMatchesRow.nop : EncodeMatchesRow.Statement .nop :=
  ⟨⟨1, 0xFFFF, 0x0000⟩, by decide, rfl, beq_iff_eq.2 rfl⟩

theorem EncodeMatchesRow.cls : EncodeMatchesRow.Statement .cls :=
  ⟨⟨2, 0xFFFF, 0x00E0⟩, by decide, rfl, beq_iff_eq.2 rfl⟩

theorem EncodeMatchesRow.ret : EncodeMatchesRow.Statement .ret :=
  ⟨⟨3, 0xFFFF, 0x00EE⟩, by decide, rfl, beq_iff_eq.2 rfl⟩

theorem EncodeMatchesRow.jp (nnn : Imm12) : EncodeMatchesRow.Statement (.jp nnn) :=
  ⟨⟨4, 0xF000, 0x1000⟩, by decide, rfl, beq_iff_eq.2 (wordNNN_masked _ _)⟩

theorem EncodeMatchesRow.call (nnn : Imm12) : EncodeMatchesRow.Statement (.call nnn) :=
  ⟨⟨5, 0xF000, 0x2000⟩, by decide, rfl, beq_iff_eq.2 (wordNNN_masked _ _)⟩

theorem EncodeMatchesRow.seImm (x : Reg) (nn : Byte) : EncodeMatchesRow.Statement (.seImm x nn) :=
  ⟨⟨6, 0xF000, 0x3000⟩, by decide, rfl, beq_iff_eq.2 (wordXNN_masked _ _ _)⟩

theorem EncodeMatchesRow.sneImm (x : Reg) (nn : Byte) : EncodeMatchesRow.Statement (.sneImm x nn) :=
  ⟨⟨7, 0xF000, 0x4000⟩, by decide, rfl, beq_iff_eq.2 (wordXNN_masked _ _ _)⟩

theorem EncodeMatchesRow.seReg (x : Reg) (y : Reg) : EncodeMatchesRow.Statement (.seReg x y) :=
  ⟨⟨8, 0xF00F, 0x5000⟩, by decide, rfl, beq_iff_eq.2 (wordXY_masked _ _ _ _)⟩

theorem EncodeMatchesRow.ldImm (x : Reg) (nn : Byte) : EncodeMatchesRow.Statement (.ldImm x nn) :=
  ⟨⟨9, 0xF000, 0x6000⟩, by decide, rfl, beq_iff_eq.2 (wordXNN_masked _ _ _)⟩

theorem EncodeMatchesRow.addImm (x : Reg) (nn : Byte) : EncodeMatchesRow.Statement (.addImm x nn) :=
  ⟨⟨10, 0xF000, 0x7000⟩, by decide, rfl, beq_iff_eq.2 (wordXNN_masked _ _ _)⟩

theorem EncodeMatchesRow.ldReg (x : Reg) (y : Reg) : EncodeMatchesRow.Statement (.ldReg x y) :=
  ⟨⟨11, 0xF00F, 0x8000⟩, by decide, rfl, beq_iff_eq.2 (wordXY_masked _ _ _ _)⟩

theorem EncodeMatchesRow.or (x : Reg) (y : Reg) : EncodeMatchesRow.Statement (.or x y) :=
  ⟨⟨12, 0xF00F, 0x8001⟩, by decide, rfl, beq_iff_eq.2 (wordXY_masked _ _ _ _)⟩

theorem EncodeMatchesRow.and (x : Reg) (y : Reg) : EncodeMatchesRow.Statement (.and x y) :=
  ⟨⟨13, 0xF00F, 0x8002⟩, by decide, rfl, beq_iff_eq.2 (wordXY_masked _ _ _ _)⟩

theorem EncodeMatchesRow.xor (x : Reg) (y : Reg) : EncodeMatchesRow.Statement (.xor x y) :=
  ⟨⟨14, 0xF00F, 0x8003⟩, by decide, rfl, beq_iff_eq.2 (wordXY_masked _ _ _ _)⟩

theorem EncodeMatchesRow.add (x : Reg) (y : Reg) : EncodeMatchesRow.Statement (.add x y) :=
  ⟨⟨15, 0xF00F, 0x8004⟩, by decide, rfl, beq_iff_eq.2 (wordXY_masked _ _ _ _)⟩

theorem EncodeMatchesRow.sub (x : Reg) (y : Reg) : EncodeMatchesRow.Statement (.sub x y) :=
  ⟨⟨16, 0xF00F, 0x8005⟩, by decide, rfl, beq_iff_eq.2 (wordXY_masked _ _ _ _)⟩

theorem EncodeMatchesRow.shr (x : Reg) (y : Reg) : EncodeMatchesRow.Statement (.shr x y) :=
  ⟨⟨17, 0xF00F, 0x8006⟩, by decide, rfl, beq_iff_eq.2 (wordXY_masked _ _ _ _)⟩

theorem EncodeMatchesRow.subn (x : Reg) (y : Reg) : EncodeMatchesRow.Statement (.subn x y) :=
  ⟨⟨18, 0xF00F, 0x8007⟩, by decide, rfl, beq_iff_eq.2 (wordXY_masked _ _ _ _)⟩

theorem EncodeMatchesRow.shl (x : Reg) (y : Reg) : EncodeMatchesRow.Statement (.shl x y) :=
  ⟨⟨19, 0xF00F, 0x800E⟩, by decide, rfl, beq_iff_eq.2 (wordXY_masked _ _ _ _)⟩

theorem EncodeMatchesRow.sneReg (x : Reg) (y : Reg) : EncodeMatchesRow.Statement (.sneReg x y) :=
  ⟨⟨20, 0xF00F, 0x9000⟩, by decide, rfl, beq_iff_eq.2 (wordXY_masked _ _ _ _)⟩

theorem EncodeMatchesRow.ldI (nnn : Imm12) : EncodeMatchesRow.Statement (.ldI nnn) :=
  ⟨⟨21, 0xF000, 0xA000⟩, by decide, rfl, beq_iff_eq.2 (wordNNN_masked _ _)⟩

theorem EncodeMatchesRow.jpV0 (nnn : Imm12) : EncodeMatchesRow.Statement (.jpV0 nnn) :=
  ⟨⟨22, 0xF000, 0xB000⟩, by decide, rfl, beq_iff_eq.2 (wordNNN_masked _ _)⟩

theorem EncodeMatchesRow.rnd (x : Reg) (nn : Byte) : EncodeMatchesRow.Statement (.rnd x nn) :=
  ⟨⟨23, 0xF000, 0xC000⟩, by decide, rfl, beq_iff_eq.2 (wordXNN_masked _ _ _)⟩

theorem EncodeMatchesRow.drw (x : Reg) (y : Reg) (n : Nat) : EncodeMatchesRow.Statement (.drw x y n) :=
  ⟨⟨24, 0xF000, 0xD000⟩, by decide, rfl, beq_iff_eq.2 (wordXYN_masked _ _ _ _)⟩

theorem EncodeMatchesRow.skp (x : Reg) : EncodeMatchesRow.Statement (.skp x) :=
  ⟨⟨25, 0xF0FF, 0xE09E⟩, by decide, rfl, beq_iff_eq.2 (wordX_masked _ _ _)⟩

theorem EncodeMatchesRow.sknp (x : Reg) : EncodeMatchesRow.Statement (.sknp x) :=
  ⟨⟨26, 0xF0FF, 0xE0A1⟩, by decide, rfl, beq_iff_eq.2 (wordX_masked _ _ _)⟩

theorem EncodeMatchesRow.ldVxDt (x : Reg) : EncodeMatchesRow.Statement (.ldVxDt x) :=
  ⟨⟨27, 0xF0FF, 0xF007⟩, by decide, rfl, beq_iff_eq.2 (wordX_masked _ _ _)⟩

theorem EncodeMatchesRow.ldVxK (x : Reg) : EncodeMatchesRow.Statement (.ldVxK x) :=
  ⟨⟨28, 0xF0FF, 0xF00A⟩, by decide, rfl, beq_iff_eq.2 (wordX_masked _ _ _)⟩

theorem EncodeMatchesRow.ldDtVx (x : Reg) : EncodeMatchesRow.Statement (.ldDtVx x) :=
  ⟨⟨29, 0xF0FF, 0xF015⟩, by decide, rfl, beq_iff_eq.2 (wordX_masked _ _ _)⟩

theorem EncodeMatchesRow.ldStVx (x : Reg) : EncodeMatchesRow.Statement (.ldStVx x) :=
  ⟨⟨30, 0xF0FF, 0xF018⟩, by decide, rfl, beq_iff_eq.2 (wordX_masked _ _ _)⟩

theorem EncodeMatchesRow.addI (x : Reg) : EncodeMatchesRow.Statement (.addI x) :=
  ⟨⟨31, 0xF0FF, 0xF01E⟩, by decide, rfl, beq_iff_eq.2 (wordX_masked _ _ _)⟩

theorem EncodeMatchesRow.ldF (x : Reg) : EncodeMatchesRow.Statement (.ldF x) :=
  ⟨⟨32, 0xF0FF, 0xF029⟩, by decide, rfl, beq_iff_eq.2 (wordX_masked _ _ _)⟩

theorem EncodeMatchesRow.ldB (x : Reg) : EncodeMatchesRow.Statement (.ldB x) :=
  ⟨⟨33, 0xF0FF, 0xF033⟩, by decide, rfl, beq_iff_eq.2 (wordX_masked _ _ _)⟩

theorem EncodeMatchesRow.ldMemVx (x : Reg) : EncodeMatchesRow.Statement (.ldMemVx x) :=
  ⟨⟨34, 0xF0FF, 0xF055⟩, by decide, rfl, beq_iff_eq.2 (wordX_masked _ _ _)⟩

theorem EncodeMatchesRow.ldVxMem (x : Reg) : EncodeMatchesRow.Statement (.ldVxMem x) :=
  ⟨⟨35, 0xF0FF, 0xF065⟩, by decide, rfl, beq_iff_eq.2 (wordX_masked _ _ _)⟩

end Sys2Proof.Laws
end

