-- ==== Sys2Proof/Laws/Step.lean ====
section
/-! SUPPORT. Everything a step can do, said once, and the two endings of each meaning that can fault. -/

namespace Sys2Proof.Machine

/-- The four ways a step goes (50_host_interface.md R183). -/
theorem step_cases (s : State) :
    (s.faulted = true ∧ step s = .next s) ∨
    (s.faulted = false ∧ 4095 ≤ s.pc.toNat ∧ step s = .next s.fetchFault) ∨
    (∃ ir r, s.faulted = false ∧ s.pc.toNat ≤ 4094 ∧ s.fetch = some ir ∧ decode ir = .error r ∧
      step s = .next (s.decodeFault ir)) ∨
    (∃ ir i, s.faulted = false ∧ s.pc.toNat ≤ 4094 ∧ s.fetch = some ir ∧ decode ir = .ok i ∧
      step s = exec i s.advance) := by
  unfold step
  cases hf : s.faulted with
  | true => exact Or.inl ⟨rfl, by simp⟩
  | false =>
    refine Or.inr ?_
    rcases fetch_cases s with ⟨hpc, he⟩ | ⟨hpc, he⟩
    · refine Or.inr ?_
      rw [he]
      cases hd : decode (s.byteAt s.pc.toNat ++ s.byteAt (s.pc.toNat + 1)) with
      | error r => exact Or.inl ⟨_, r, rfl, hpc, rfl, hd, by simp [hd]⟩
      | ok i => exact Or.inr ⟨_, i, rfl, hpc, rfl, hd, by simp [hd]⟩
    · exact Or.inl ⟨rfl, hpc, by simp [he]⟩

/-- `RET` pops, or faults on an empty stack (R101). -/
theorem execRet_cases (s : State) :
    (∃ (h : s.sp.val - 1 < 16) (h' : s.sp.val - 1 < 17), 0 < s.sp.val ∧
      execRet s = .next { s with pc := s.stack[s.sp.val - 1], sp := ⟨s.sp.val - 1, h'⟩ }) ∨
    (s.sp.val = 0 ∧ execRet s = .next (s.takeFault .stackUnderflow (encode .ret) 0)) := by
  unfold execRet
  rcases pop_cases s with ⟨h, h', hp, he⟩ | ⟨hp, he⟩
  · exact Or.inl ⟨h, h', hp, by rw [he]; rfl⟩
  · exact Or.inr ⟨hp, by rw [he]⟩

/-- `CALL` pushes, or faults on a full stack (R103). -/
theorem execCall_cases (nnn : Imm12) (s : State) :
    (∃ (h : s.sp.val < 16) (h' : s.sp.val + 1 < 17), execCall nnn s =
      .next { s with pc := zext16 nnn, stack := s.stack.set s.sp.val s.pc h, sp := ⟨s.sp.val + 1, h'⟩ }) ∨
    (s.sp.val = 16 ∧ execCall nnn s = .next (s.takeFault .stackOverflow (encode (.call nnn)) 0)) := by
  unfold execCall
  rcases push_cases s s.pc with ⟨h, h', he⟩ | ⟨hp, he⟩
  · exact Or.inl ⟨h, h', by rw [he]; rfl⟩
  · exact Or.inr ⟨hp, by rw [he]⟩

/-- `LD B, Vx` stores three digits, or faults (R153). -/
theorem execLdB_cases (x : Reg) (s : State) :
    (s.i.toNat + 3 ≤ 4096 ∧
      execLdB x s = .next (s.putBytes s.i.toNat (bcdDigits (s.reg x)))) ∨
    (4096 < s.i.toNat + 3 ∧ execLdB x s = .next (s.takeFault .addrData (encode (.ldB x)) (addrInfo s.i))) := by
  have hl : (bcdDigits (s.reg x)).length = 3 := rfl
  unfold execLdB
  rcases memWrite_cases s s.i.toNat (bcdDigits (s.reg x)) with ⟨hr, he⟩ | ⟨hr, he⟩
  · exact Or.inl ⟨by omega, by rw [he]⟩
  · exact Or.inr ⟨by omega, by rw [he]⟩

/-- `LD [I], Vx` stores its registers, or faults (R154). -/
theorem execLdMemVx_cases (x : Reg) (s : State) :
    (s.i.toNat + (x.val + 1) ≤ 4096 ∧
      execLdMemVx x s = .next (s.putBytes s.i.toNat (s.regsUpTo x))) ∨
    (4096 < s.i.toNat + (x.val + 1) ∧
      execLdMemVx x s = .next (s.takeFault .addrData (encode (.ldMemVx x)) (addrInfo s.i))) := by
  have hl := length_regsUpTo s x
  unfold execLdMemVx
  rcases memWrite_cases s s.i.toNat (s.regsUpTo x) with ⟨hr, he⟩ | ⟨hr, he⟩
  · exact Or.inl ⟨by omega, by rw [he]⟩
  · exact Or.inr ⟨by omega, by rw [he]⟩

/-- `LD Vx, [I]` loads its registers, or faults (R155). -/
theorem execLdVxMem_cases (x : Reg) (s : State) :
    (s.i.toNat + (x.val + 1) ≤ 4096 ∧
      execLdVxMem x s = .next { s with v := fillRegs s.v 0 (readBytes s.glyph s.mem s.i.toNat (x.val + 1)) }) ∨
    (4096 < s.i.toNat + (x.val + 1) ∧
      execLdVxMem x s = .next (s.takeFault .addrData (encode (.ldVxMem x)) (addrInfo s.i))) := by
  unfold execLdVxMem blockLength
  rcases memRead_cases s s.i.toNat (x.val + 1) with ⟨hr, he⟩ | ⟨hr, he⟩
  · exact Or.inl ⟨by omega, by rw [he]⟩
  · exact Or.inr ⟨by omega, by rw [he]⟩

/-- `DRW` draws its rows, or faults (R161). -/
theorem execDrw_cases (x y : Reg) (n : Nat) (s : State) :
    ((n = 0 ∨ s.i.toNat + n ≤ 4096) ∧ ∃ d, d = drawRows (s.reg x).toNat (s.reg y).toNat
        (readBytes s.glyph s.mem s.i.toNat n) (s.fb, false) ∧
      execDrw x y n s = .next (({ s with fb := d.1 } : State).setFlag d.2)) ∨
    ((0 < n ∧ 4096 < s.i.toNat + n) ∧
      execDrw x y n s = .next (s.takeFault .addrData (encode (.drw x y n)) (addrInfo s.i))) := by
  unfold execDrw
  rcases memRead_cases s s.i.toNat n with ⟨hr, he⟩ | ⟨hr, he⟩
  · exact Or.inl ⟨hr, _, rfl, by rw [he]⟩
  · exact Or.inr ⟨hr, by rw [he]⟩

/-- `SKP` tests a key, or faults (R170). -/
theorem execSkp_cases (x : Reg) (s : State) :
    (∃ k : KeyIndex, k.val = (s.reg x).toNat ∧ execSkp x s = .next (s.skipIf (s.key k))) ∨
    (16 ≤ (s.reg x).toNat ∧
      execSkp x s = .next (s.takeFault .keyIndex (encode (.skp x)) (zext16 (s.reg x)))) := by
  unfold execSkp
  rcases keyOperand_cases (s.reg x) with ⟨k, hk, he⟩ | ⟨hk, he⟩
  · exact Or.inl ⟨k, hk, by rw [he]⟩
  · exact Or.inr ⟨hk, by rw [he]⟩

/-- `SKNP` tests a key, or faults (R171). -/
theorem execSknp_cases (x : Reg) (s : State) :
    (∃ k : KeyIndex, k.val = (s.reg x).toNat ∧ execSknp x s = .next (s.skipIf (!s.key k))) ∨
    (16 ≤ (s.reg x).toNat ∧
      execSknp x s = .next (s.takeFault .keyIndex (encode (.sknp x)) (zext16 (s.reg x)))) := by
  unfold execSknp
  rcases keyOperand_cases (s.reg x) with ⟨k, hk, he⟩ | ⟨hk, he⟩
  · exact Or.inl ⟨k, hk, by rw [he]⟩
  · exact Or.inr ⟨hk, by rw [he]⟩

/-- `LD Vx, K` takes the least pressed key, or goes back (R172). -/
theorem execLdVxK_cases (x : Reg) (s : State) :
    (∃ k : KeyIndex, s.key k = true ∧ (∀ j, j < k → s.key j = false) ∧
      execLdVxK x s = .next (s.setReg x (BitVec.ofNat 8 k.val))) ∨
    ((∀ k, s.key k = false) ∧ execLdVxK x s = .next (s.setPc (s.pc - 2))) := by
  unfold execLdVxK
  rcases lowestPressed_cases s with ⟨k, he, hk, hj⟩ | ⟨he, hk⟩
  · exact Or.inl ⟨k, hk, hj, by rw [he]⟩
  · exact Or.inr ⟨hk, by rw [he]⟩

end Sys2Proof.Machine
end

