-- ==== Sys2Proof/Tests/Slice0.lean ====
section
/-! SUPPORT. Tests of the model on fixed values, and for every statement with hypotheses a witness that meets them. The
expected results are those of spec/95_test_vectors.md (cited by section and number) or worked out by hand from the rule
cited; the words are written out from the encodings of 30_encoding.md R75. -/

namespace Sys2Proof.Machine.Tests

/-- A reset core with the word `ir` at 0x200, where `PC` stands. -/
def start (ir : Word) : State :=
  State.reset.putBytes 0x200 [ir.extractLsb' 8 8, ir.extractLsb' 0 8]

/-- What `f` reads in the next state, none where the outcome is no next state. -/
def after {α : Type} (o : Host.Outcome State Fault Refusal) (f : State → α) : Option α :=
  match o with
  | .next s => some (f s)
  | .fault _ => none
  | .refused _ => none

/-- An outcome whose next state is `t` is that outcome; the premise is decidable. -/
theorem next_of_after {o : Host.Outcome State Fault Refusal} {t : State} (h : after o id = some t) : o = .next t := by
  cases o with
  | next s => exact congrArg Host.Outcome.next (Option.some.inj h)
  | fault f => cases f
  | refused r => exact absurd h (by simp [after])

/-- The registers `V[0]`, `V[1]` and `VF`. -/
def v01F (s : State) : Byte × Byte × Byte := (s.reg 0, s.reg 1, s.reg VF)

/-- The start state of the ALU vectors: `V[0]`, `V[1]`, `VF`. -/
def alu (ir : Word) (a b f : Byte) : State := (((start ir).setReg 0 a).setReg 1 b).setReg VF f

/-- The fault record with `PC`. -/
def record (s : State) : FaultCause × Word × Word × Word := (s.faultCause, s.faultIr, s.faultInfo, s.pc)

/-! ### Well-formedness (R82) -/

theorem test_wf_drw_refuses_16_rows : (Instr.drw 0 0 16).wellFormed = false := by decide
theorem test_wf_drw_takes_15_rows : (Instr.drw 15 15 15).wellFormed = true := by decide

/-! ### Decoding: one written word for every constructor (R75, R73; vectors 2.1 to 2.8) -/

theorem test_decode_nop : decode 0b0000_0000_0000_0000#16 = .ok .nop := by decide
theorem test_decode_cls : decode 0b0000_0000_1110_0000#16 = .ok .cls := by decide
theorem test_decode_ret : decode 0b0000_0000_1110_1110#16 = .ok .ret := by decide
theorem test_decode_jp : decode 0b0001_1010_1011_1100#16 = .ok (.jp 0xABC) := by decide
theorem test_decode_call : decode 0b0010_1010_1011_1100#16 = .ok (.call 0xABC) := by decide
theorem test_decode_seImm : decode 0b0011_0011_0010_1010#16 = .ok (.seImm 3 0x2A) := by decide
theorem test_decode_sneImm : decode 0b0100_0011_0010_1010#16 = .ok (.sneImm 3 0x2A) := by decide
theorem test_decode_seReg : decode 0b0101_0001_0010_0000#16 = .ok (.seReg 1 2) := by decide
theorem test_decode_ldImm : decode 0b0110_1010_0000_0011#16 = .ok (.ldImm 10 0x03) := by decide
theorem test_decode_addImm : decode 0b0111_0000_1111_1110#16 = .ok (.addImm 0 0xFE) := by decide
theorem test_decode_ldReg : decode 0b1000_0001_0010_0000#16 = .ok (.ldReg 1 2) := by decide
theorem test_decode_or : decode 0b1000_0001_0010_0001#16 = .ok (.or 1 2) := by decide
theorem test_decode_and : decode 0b1000_0001_0010_0010#16 = .ok (.and 1 2) := by decide
theorem test_decode_xor : decode 0b1000_0001_0010_0011#16 = .ok (.xor 1 2) := by decide
theorem test_decode_add : decode 0b1000_0001_0010_0100#16 = .ok (.add 1 2) := by decide
theorem test_decode_sub : decode 0b1000_0001_0010_0101#16 = .ok (.sub 1 2) := by decide
theorem test_decode_shr : decode 0b1000_0001_0010_0110#16 = .ok (.shr 1 2) := by decide
theorem test_decode_subn : decode 0b1000_0001_0010_0111#16 = .ok (.subn 1 2) := by decide
theorem test_decode_shl : decode 0b1000_0001_0010_1110#16 = .ok (.shl 1 2) := by decide
theorem test_decode_sneReg : decode 0b1001_0001_0010_0000#16 = .ok (.sneReg 1 2) := by decide
theorem test_decode_ldI : decode 0b1010_1010_1011_1100#16 = .ok (.ldI 0xABC) := by decide
theorem test_decode_jpV0 : decode 0b1011_1111_1111_1110#16 = .ok (.jpV0 0xFFE) := by decide
theorem test_decode_rnd : decode 0b1100_0010_0000_1111#16 = .ok (.rnd 2 0x0F) := by decide
theorem test_decode_drw : decode 0b1101_0001_0010_0110#16 = .ok (.drw 1 2 6) := by decide
theorem test_decode_skp : decode 0b1110_0001_1001_1110#16 = .ok (.skp 1) := by decide
theorem test_decode_sknp : decode 0b1110_0001_1010_0001#16 = .ok (.sknp 1) := by decide
theorem test_decode_ldVxDt : decode 0b1111_0001_0000_0111#16 = .ok (.ldVxDt 1) := by decide
theorem test_decode_ldVxK : decode 0b1111_0001_0000_1010#16 = .ok (.ldVxK 1) := by decide
theorem test_decode_ldDtVx : decode 0b1111_0001_0001_0101#16 = .ok (.ldDtVx 1) := by decide
theorem test_decode_ldStVx : decode 0b1111_0001_0001_1000#16 = .ok (.ldStVx 1) := by decide
theorem test_decode_addI : decode 0b1111_0001_0001_1110#16 = .ok (.addI 1) := by decide
theorem test_decode_ldF : decode 0b1111_0001_0010_1001#16 = .ok (.ldF 1) := by decide
theorem test_decode_ldB : decode 0b1111_0001_0011_0011#16 = .ok (.ldB 1) := by decide
theorem test_decode_ldMemVx : decode 0b1111_0001_0101_0101#16 = .ok (.ldMemVx 1) := by decide
theorem test_decode_ldVxMem : decode 0b1111_0001_0110_0101#16 = .ok (.ldVxMem 1) := by decide

/-- The illegal words of vectors 2.8 and 2.4 number 46, each under its family's name. -/
theorem test_decode_rejects :
    [0x0001, 0x00E1, 0x00EF, 0x01E0, 0x00FD, 0x0200, 0x0FFF].map decode = List.replicate 7 (.error .illegal0) ∧
    [0x8018, 0x8019, 0x801A, 0x801B, 0x801C, 0x801D, 0x801F].map decode = List.replicate 7 (.error .illegal8) ∧
    [0x512F, 0x9121, 0xE19F, 0xE000, 0xF100, 0xF116, 0xFFFF].map decode =
      [.error .illegal5, .error .illegal9] ++ List.replicate 2 (.error .illegalE) ++
        List.replicate 3 (.error .illegalF) := by decide

/-- The first byte of an instruction is its high byte (R71), and what follows it is left over. -/
theorem test_decodeBytes_high_first : decodeBytes [0x6A, 0x03, 0xFF] = .ok (.ldImm 10 0x03, [0xFF]) := by decide
theorem test_decodeBytes_one_byte : decodeBytes [0x6A] = .error .truncated := by decide
theorem test_decodeTableWord : decodeTableWord 16 0xD123 = some (.drw 1 2 3) := by decide

/-- A word placed for the next step is the one it runs, also from a faulted core past the end of memory. -/
theorem test_withFetchWord :
    after (step (State.reset.withFetchWord 16 0x6A03)) (fun s => (s.reg 10, s.pc)) = some (0x03, 0x202) ∧
    after (step (({ State.reset with pc := 0x1000, faultCause := .addrFetch } : State).withFetchWord 16 0x6A03))
      (fun s => s.reg 10) = some 0x03 := by decide

/-! ### Control transfer (vectors 2.1) -/

theorem test_nop : step (start 0x0000) = .next { start 0x0000 with pc := 0x202 } :=
  next_of_after (by decide)
theorem test_jp : after (step (start 0x1ABC)) State.pc = some 0x0ABC := by decide
theorem test_jp_then_fetch_fault :
    after (step ({ start 0 with pc := 0x0FFF } : State)) record = some (.addrFetch, 0, 0x1000, 0x0FFF) := by decide
theorem test_call : after (step (start 0x2ABC)) (fun s => (s.stack[0], s.sp, s.pc)) = some (0x0202, 1, 0x0ABC) := by
  decide
theorem test_call_full : after (step ({ start 0x2ABC with sp := 16 } : State)) (fun s => (record s, s.sp)) =
    some ((.stackOverflow, 0x2ABC, 0, 0x202), 16) := by decide
theorem test_ret :
    after (step ({ start 0x00EE with sp := 2, stack := (State.reset.stack.set 1 0x0456).set 0 0x0300 } : State))
      (fun s => (s.pc, s.sp, s.stack[1])) = some (0x0456, 1, 0x0456) := by decide
theorem test_ret_empty : after (step (start 0x00EE)) (fun s => (record s, s.sp)) =
    some ((.stackUnderflow, 0x00EE, 0, 0x202), 0) := by decide
theorem test_jpV0 : after (step (((start 0xB300).setReg 0 0x10).setReg 3 0x99)) State.pc = some 0x0310 := by decide
theorem test_jpV0_no_wrap : after (step ((start 0xBFFF).setReg 0 0xFF)) (fun s => (s.pc, s.reg VF)) =
    some (0x10FE, 0) := by decide
theorem test_odd_pc_fetch :
    after (step ({ State.reset.putBytes 0x203 [0x6A, 0x55] with pc := 0x203 } : State))
      (fun s => (s.reg 10, s.pc)) = some (0x55, 0x205) := by decide

/-! ### Skips (vectors 2.2) -/

theorem test_seImm : after (step ((start 0x332A).setReg 3 0x2A)) State.pc = some 0x204 := by decide
theorem test_seImm_no : after (step ((start 0x332A).setReg 3 0x2B)) State.pc = some 0x202 := by decide
theorem test_sneImm : after (step ((start 0x432A).setReg 3 0x2B)) State.pc = some 0x204 := by decide
theorem test_sneImm_no : after (step ((start 0x432A).setReg 3 0x2A)) State.pc = some 0x202 := by decide
theorem test_seReg : after (step (((start 0x5120).setReg 1 7).setReg 2 7)) State.pc = some 0x204 := by decide
theorem test_seReg_no : after (step (((start 0x5120).setReg 1 7).setReg 2 8)) State.pc = some 0x202 := by decide
theorem test_sneReg : after (step (((start 0x9120).setReg 1 7).setReg 2 8)) State.pc = some 0x204 := by decide
theorem test_sneReg_no : after (step (((start 0x9120).setReg 1 7).setReg 2 7)) State.pc = some 0x202 := by decide
theorem test_skip_past_the_end :
    after (step ({ State.reset.putBytes 0xFFE [0x30, 0x00] with pc := 0xFFE } : State)) record =
      some (.noFault, 0, 0, 0x1002) := by decide

/-! ### Immediates and random (vectors 2.3) -/

theorem test_ldImm_VF : after (step (start 0x6FAB)) (fun s => s.reg VF) = some 0xAB := by decide
theorem test_addImm_wraps_without_flag : after (step (alu 0x70FF 0x01 0 0x77)) v01F = some (0x00, 0, 0x77) := by decide
theorem test_addImm_VF : after (step ((start 0x7F02).setReg VF 0xFF)) (fun s => s.reg VF) = some 0x01 := by decide
theorem test_rnd_mask_zero : after (execRnd 2 0x00 (start 0)) (fun s => (s.reg 2, s.draws)) = some (0x00, 1) := by
  simp [after, execRnd, State.draw, start, State.reset]

/-! ### ALU (vectors 2.4) -/

theorem test_ldReg_VF : after (step (alu 0x8F10 0 0x9A 0)) v01F = some (0, 0x9A, 0x9A) := by decide
theorem test_or_keeps_VF : after (step (alu 0x8011 0x01 0x02 0x01)) v01F = some (0x03, 0x02, 0x01) := by decide
theorem test_and : after (step (alu 0x8012 0xF0 0x3C 0)) v01F = some (0x30, 0x3C, 0) := by decide
theorem test_xor : after (step (alu 0x8013 0xF0 0x3C 0)) v01F = some (0xCC, 0x3C, 0) := by decide
theorem test_add_carry : after (step (alu 0x8014 0xFF 0x01 0)) v01F = some (0x00, 0x01, 1) := by decide
theorem test_add_into_VF : after (step (alu 0x8F14 0 0x03 0x05)) v01F = some (0, 0x03, 0x00) := by decide
theorem test_sub_borrow : after (step (alu 0x8015 0x01 0x02 0)) v01F = some (0xFF, 0x02, 0) := by decide
theorem test_sub_equal : after (step (alu 0x8015 0x05 0x05 0)) v01F = some (0x00, 0x05, 1) := by decide
theorem test_shr_ignores_y : after (step (alu 0x80F6 0x04 0 0x55)) v01F = some (0x02, 0, 0) := by decide
theorem test_shr_VF : after (step (alu 0x8F06 0 0 0x03)) v01F = some (0, 0, 0x01) := by decide
theorem test_subn : after (step (alu 0x8017 0x03 0x0A 0)) v01F = some (0x07, 0x0A, 1) := by decide
theorem test_subn_borrow : after (step (alu 0x8017 0xFF 0x00 0)) v01F = some (0x01, 0x00, 0) := by decide
theorem test_shl : after (step (alu 0x801E 0x81 0 0)) v01F = some (0x02, 0, 1) := by decide
theorem test_shl_VF : after (step (alu 0x8F0E 0 0 0x41)) v01F = some (0, 0, 0x00) := by decide

/-! ### Index and memory (vectors 2.5) -/

theorem test_ldI : after (step (start 0xAFFF)) State.i = some 0x0FFF := by decide
theorem test_addI : after (step ((start 0xF41E).setReg 4 0x01 |>.setI 0x0FFF)) (fun s => (s.i, s.reg VF)) =
    some (0x1000, 0) := by decide
theorem test_addI_wraps : after (step ((start 0xF41E).setReg 4 0xFF |>.setI 0xFFFF)) State.i = some 0x00FE := by decide
theorem test_ldF_unmasked : after (step ((start 0xFA29).setReg 10 0xFF)) State.i = some 0x04FB := by decide
theorem test_ldB : after (step ((start 0xF333).setReg 3 0x9D |>.setI 0x300)) (fun s => (readBytes s.glyph s.mem 0x300 3, s.i)) =
    some ([1, 5, 7], 0x300) := by decide
theorem test_ldB_past_the_end : after (step ((start 0xF333).setReg 3 123 |>.setI 0x0FFE))
    (fun s => (record s, readBytes s.glyph s.mem 0xFFE 2)) = some ((.addrData, 0xF333, 0x1000, 0x202), [0, 0]) := by decide
theorem test_ldMemVx : after (step ((((start 0xF255).setReg 0 0x11).setReg 1 0x22).setReg 2 0x33 |>.setI 0x400))
    (fun s => (readBytes s.glyph s.mem 0x400 4, s.i)) = some ([0x11, 0x22, 0x33, 0x00], 0x400) := by decide
theorem test_ldMemVx_past_the_end : after (step ((start 0xF155).setReg 0 0x77 |>.setI 0x0FFF))
    (fun s => (record s, s.byteAt 0xFFF)) = some ((.addrData, 0xF155, 0x1000, 0x202), 0) := by decide
theorem test_ldVxMem_glyph : after (step (start 0xF465)) (fun s => s.regsUpTo 5) =
    some [0xF0, 0x90, 0x90, 0x90, 0xF0, 0x00] := by decide
theorem test_ldVxMem_past_the_end : after (step ((alu 0xF165 1 2 0).setI 0x0FFF)) (fun s => (record s, v01F s)) =
    some ((.addrData, 0xF165, 0x1000, 0x202), 1, 2, 0) := by decide

/-- Writing the reset contents back removes the entry (the model's canonical form, log entry 28). -/
theorem test_memory_canonical : ((State.reset.putBytes 0x300 [0x55]).putBytes 0x300 [0x00]).mem = [] ∧
    ((State.reset.putBytes 0x00 [0x55]).putBytes 0x00 [0xF0]).mem = [] := by decide

/-! ### Display (vectors 2.6) -/

/-- A start state with sprite bytes at 0x300 and coordinates in `V[0]`, `V[1]`. -/
def sprite (ir : Word) (bs : List Byte) (x y : Byte) : State :=
  let s := ((start ir).setReg 0 x).setReg 1 y |>.setI 0x300
  s.putBytes 0x300 bs

/-- Row `y` of the framebuffer and the flag. -/
def rowFlag (y : Fin 32) (s : State) : BitVec 64 × Byte := (s.fb[y], s.reg VF)

theorem test_cls : after (step ((sprite 0x00E0 [] 0 0).setFlag true |> fun s => { s with fb := togglePixel s.fb 7 0 }))
    (fun s => (s.fb == clearFb, s.reg VF)) = some (true, 1) := by decide
/-- Vector 2: columns 60 to 63 and 0 to 3. -/
theorem test_drw_wraps : after (step (sprite 0xD011 [0xFF] 60 0)) (rowFlag 0) = some (0xF00000000000000F#64, 0) := by
  decide
/-- Vector 12: the column is the old `VF`, the row `V[0]` = 2; bit 7 is the leftmost pixel. -/
theorem test_drw_VF_column : after (step ((sprite 0xDF01 [0x80] 2 0).setReg VF 0x0A)) (rowFlag 2) =
    some (1#64 <<< 10, 0) := by decide
/-- Vector 6: bit 6 is sprite column 1. -/
theorem test_drw_collides :
    after (step (sprite 0xD011 [0x40] 4 5 |> fun s => { s with fb := togglePixel s.fb 5 5 })) (rowFlag 5) =
      some (0, 1) := by decide
/-- Vector 13: `n` = 0 never faults and clears `VF`. -/
theorem test_drw_no_rows : after (step ((sprite 0xD010 [] 0 0).setReg VF 1 |>.setI 0xFFFF)) (rowFlag 0) =
    some (0, 0) := by decide

/-! ### Keys, timers and host operations (vectors 2.7, 2.9, 2.10) -/

/-- A start state with one key pressed. -/
def pressed (ir : Word) (k : KeyIndex) (x : Reg) (b : Byte) : State := ((start ir).setReg x b).setKey k true

theorem test_skp : after (step (pressed 0xE29E 5 2 5)) State.pc = some 0x204 := by decide
theorem test_skp_value_not_field : after (step (pressed 0xE29E 2 2 5)) State.pc = some 0x202 := by decide
theorem test_sknp : after (step (pressed 0xE2A1 5 2 5)) State.pc = some 0x202 := by decide
theorem test_sknp_key_number : after (step (pressed 0xE2A1 5 2 0xFF)) record =
    some (.keyIndex, 0xE2A1, 0x00FF, 0x202) := by decide
theorem test_ldVxK_lowest : after (step ((pressed 0xF30A 9 0 0).setKey 4 true)) (fun s => (s.reg 3, s.pc)) =
    some (4, 0x202) := by decide
theorem test_ldVxK_waits : step ((start 0xF30A).setReg 3 0x77) = .next ((start 0xF30A).setReg 3 0x77) :=
  next_of_after (by decide)
theorem test_ldVxDt : after (step ((start 0xF107).setDt 0x3C)) (fun s => (s.reg 1, s.dt)) = some (0x3C, 0x3C) := by
  decide
theorem test_ldDtVx : after (step ((start 0xF015).setReg 0 0x05)) (fun s => (s.dt, s.st)) = some (0x05, 0) := by decide
theorem test_ldStVx : after (step ((start 0xF018).setReg 0 0x02)) (fun s => (s.st, s.sndActive)) = some (0x02, true) := by
  decide
theorem test_tick_saturates : after (hostOp .tick (State.reset.setDt 1)) (fun s => (s.dt, s.tick.dt)) = some (0, 0) := by
  decide
theorem test_tone_pulse : tonePulse .tick (State.reset.setSt 1) = true ∧
    tonePulse .tick (State.reset.setSt 2) = false := by decide
theorem test_faulted_step_does_nothing : step (start 0xFFFF).fetchFault = .next (start 0xFFFF).fetchFault :=
  next_of_after (by decide)
theorem test_load_keeps_the_tail :
    after (runOps [.load [0xAA, 0xBB, 0xCC], .load [0x11]] State.reset) (fun s => readBytes s.glyph s.mem 0x200 4) =
      some [0x11, 0xBB, 0xCC, 0x00] := by decide
theorem test_reset_erases_the_program : after (runOps [.load [0xAA], .setKey 1 true, .tick, .reset] State.reset)
    (fun s => s == State.reset) = some true := by decide
theorem test_burst_refuses_a_step :
    runEdges [pinsLoadBegin 2, ⟨false, true, 1, 0, false, 0, 0⟩] PortState.reset = .refused .commandInBurst := rfl
theorem test_glyph_ends : (State.reset.byteAt 0x00, State.reset.byteAt 0x4F, State.reset.byteAt 0x50) =
    (0xF0, 0x80, 0x00) := by decide

/-! ### Witnesses: states and operands that meet the hypotheses of each statement -/

theorem witness_DecodeOfEncodeGivesBack :
    (Instr.drw 15 15 15).wellFormed = true ∧ (Instr.shr 1 15).wellFormed = true := by decide
theorem witness_EncodeOfDecodeGivesBack : decode 0x81F6 = .ok (.shr 1 15) := by decide
theorem witness_DecodeFollowsOpcodeMap :
    (⟨19, 0xF00F, 0x800E⟩ : OpcodeRow) ∈ opcodeMap ∧ rowMatches ⟨19, 0xF00F, 0x800E⟩ 0x812E = true ∧
      decode 0x812E = .ok (.shl 1 2) ∧ decode 0x8128 = .error .illegal8 := by decide
theorem witness_StepRunsDecodedInstruction :
    let s : State := { State.reset with pc := 4094, mem := [(4094, 0x6A), (4095, 0x03)] }
    s.faulted = false ∧ s.pc.toNat ≤ 4094 ∧
      decode (s.byteAt s.pc.toNat ++ s.byteAt (s.pc.toNat + 1)) = .ok (.ldImm 10 0x03) := by decide
theorem witness_FetchPastTheEndFaults :
    let s : State := { State.reset with pc := 4095 }
    s.faulted = false ∧ 4095 ≤ s.pc.toNat := by decide
theorem witness_IllegalWordFaults :
    let s : State := { State.reset with pc := 4094, mem := [(4094, 0xFF), (4095, 0xFF)] }
    s.faulted = false ∧ s.pc.toNat ≤ 4094 ∧
      decode (s.byteAt s.pc.toNat ++ s.byteAt (s.pc.toNat + 1)) = .error .illegalF := by decide

/-- A faulted core, which every host operation leaves by a next state. -/
def faultedCore : State := (start 0xFFFF).decodeFault 0xFFFF

theorem witness_OnlyResetClearsAFault :
    faultedCore.faulted = true ∧ hostOp .step faultedCore = .next faultedCore ∧
      hostOp .reset faultedCore = .next State.reset ∧ hostOp .tick faultedCore = .next faultedCore ∧
      hostOp (.load []) faultedCore = .next faultedCore ∧ hostOp .display faultedCore = .next faultedCore ∧
      hostOp (.setKey 3 true) faultedCore = .next (faultedCore.setKey 3 true) :=
  ⟨by decide, next_of_after (by decide), next_of_after (by decide), next_of_after (by decide),
    next_of_after (by decide), rfl, rfl⟩

/-- The premises of FaultsArePrecise: an unfaulted core whose step answers a faulted state, of the cause given. -/
def faultsWith (s : State) (c : FaultCause) : Bool :=
  !s.faulted && after (step s) (fun t => (t.faulted, t.faultCause)) == some (true, c)

theorem witness_FaultsArePrecise_fetch :
    faultsWith { State.reset with pc := 4095 } .addrFetch = true ∧
    faultsWith { State.reset with pc := 0x10FE } .addrFetch = true := by decide
theorem witness_FaultsArePrecise_data :
    faultsWith ((start 0xF333).setI 4094) .addrData = true ∧
    faultsWith ((start 0xF333).setI 0xFFFF) .addrData = true := by decide
theorem witness_FaultsArePrecise_stack :
    faultsWith { start 0x2ABC with sp := 16 } .stackOverflow = true ∧
    faultsWith (start 0x00EE) .stackUnderflow = true := by decide
theorem witness_FaultsArePrecise_key : faultsWith ((start 0xE29E).setReg 2 16) .keyIndex = true := by decide
theorem witness_FaultsArePrecise_decode :
    faultsWith { State.reset with pc := 4094, mem := [(4094, 0xFF), (4095, 0xFF)] } .decode = true := by decide
theorem witness_ExecuteRaisesOnlyItsOwnFault :
    exec .nop State.reset = .next State.reset ∧
    exec .ret State.reset = .next (State.reset.takeFault .stackUnderflow 0x00EE 0) :=
  ⟨rfl, next_of_after (by decide)⟩

/-- A state at the edge of the invariant: `PC` the largest value of R24, a slot of 4096. -/
def edgeState : State := { State.reset with pc := 0x10FE, stack := State.reset.stack.set 15 4096, sp := 16 }

theorem witness_StepKeepsInvariant : Inv edgeState ∧ step edgeState = .next edgeState.fetchFault :=
  ⟨⟨rfl, by decide, by decide, fun _ => ⟨rfl, rfl⟩⟩, next_of_after (by decide)⟩
theorem witness_StepKeepsInvariant_runs : Inv (start 0x6A03) ∧
    step (start 0x6A03) = .next ((start 0x6A03).advance.setReg 10 0x03) :=
  ⟨⟨rfl, by decide, by decide, fun _ => ⟨rfl, rfl⟩⟩, next_of_after (by decide)⟩
theorem witness_EveryInterleavingKeepsInvariant : Inv edgeState ∧
    runOps [.reset, .load [], .step, .tick, .display] edgeState = .next State.reset.advance :=
  ⟨witness_StepKeepsInvariant.1, next_of_after (by decide)⟩
theorem witness_AccessMatrixIsRespected :
    exec (.ldVxMem 2) State.reset = .next (((State.reset.setReg 0 0xF0).setReg 1 0x90).setReg 2 0x90) ∧
      mayWrite (.ldVxMem 2) State.reset (.v 3) = false ∧ mayWrite (.call 0x300) State.reset (.stack 1) = false :=
  ⟨next_of_after (by decide), by decide, by decide⟩
theorem witness_FlagWritesAreZeroOrOne :
    writesFlag (.add VF 1) = true ∧ State.reset.faulted = false ∧ exec (.add VF 1) State.reset = .next State.reset :=
  ⟨by decide, by decide, next_of_after (by decide)⟩
theorem witness_OnlyRndDrawsARandomByte :
    (∀ x nn, Instr.nop ≠ .rnd x nn) ∧ exec .nop State.reset = .next State.reset := ⟨nofun, rfl⟩
theorem witness_NoInstructionReadsTheSoundTimer :
    exec (.ldStVx 0) State.reset = .next State.reset ∧ exec (.ldVxDt 0) State.reset = .next State.reset :=
  ⟨next_of_after (by decide), next_of_after (by decide)⟩
theorem witness_NopAndJump : (0x001#12 : Imm12) ≠ 0x000 ∧ (0x001#12 : Imm12) ≠ 0x0E0 ∧ (0x001#12 : Imm12) ≠ 0x0EE ∧
    decode (0x0#4 ++ 0x001#12) = .error .illegal0 := by decide
theorem witness_CallPushesTheReturnAddress : ({ State.reset with sp := 15 } : State).sp.val < 16 := by decide
theorem witness_ReturnPopsTheReturnAddress :
    0 < ({ State.reset with sp := 16 } : State).sp.val ∧ 0 < ({ State.reset with sp := 1 } : State).sp.val := by decide
theorem witness_StackFaults : ({ State.reset with sp := 16 } : State).sp.val = 16 ∧ State.reset.sp.val = 0 := by decide
theorem witness_CallThenReturnComesBack : ({ State.reset with sp := 15 } : State).sp.val < 16 ∧
    State.reset.sp.val < 16 ∧ (14 : Fin 16).val ≠ ({ State.reset with sp := 15 } : State).sp.val := by decide
theorem witness_SkipsOnRegisters : (1#4 : BitVec 4) ≠ 0 ∧ decode (0x5#4 ++ fieldOf 1 ++ fieldOf 2 ++ 1#4) = .error .illegal5 := by
  decide
theorem witness_LoadAndAddImmediateAndMove : (3 : Reg) ≠ 2 ∧ (VF : Reg) ≠ 2 := by decide
theorem witness_RandomByteUnderMask : (0x0F#8 : Byte).getLsbD 7 = false ∧ (3 : Reg) ≠ 2 := by decide
theorem witness_LogicOperations : (VF : Reg) ≠ 0 := by decide
theorem witness_AddWithCarry : (0 : Reg) ≠ VF ∧ (2 : Reg) ≠ 0 ∧ (2 : Reg) ≠ VF := by decide
theorem witness_SubtractWithBorrow : (0 : Reg) ≠ VF ∧ (2 : Reg) ≠ 0 ∧ (2 : Reg) ≠ VF := by decide
theorem witness_ShiftsByOne : (0 : Reg) ≠ VF ∧ (2 : Reg) ≠ 0 ∧ (2 : Reg) ≠ VF := by decide
theorem witness_IndexAndTimerMoves : (VF : Reg) ≠ 0 := by decide
theorem witness_BcdStoresTheDigits :
    let s := (start 0).setI 4093
    s.memWf = true ∧ s.i.toNat + 2 < 4096 ∧ 0 < s.i.toNat := by decide
theorem witness_BlockStore :
    let s := (start 0x6A03).setI 4080
    s.memWf = true ∧ s.i.toNat + (15 : Reg).val < 4096 ∧ (15 : Reg).val ≤ (15 : Reg).val ∧ 0 < s.i.toNat := by decide
theorem witness_BlockLoad :
    let s := (start 0).setI 4082
    s.i.toNat + (13 : Reg).val < 4096 ∧ (0 : Reg).val ≤ (13 : Reg).val ∧ (13 : Reg).val < (14 : Reg).val := by decide
theorem witness_RangePastTheEndFaults_small :
    4096 ≤ (State.reset.setI 4094).i.toNat + 2 ∧ 4096 ≤ (State.reset.setI 4081).i.toNat + (15 : Reg).val ∧
      (0 < 15 ∧ 15 < 16 ∧ 4096 ≤ (State.reset.setI 4082).i.toNat + 15 - 1) := by decide
theorem witness_RangePastTheEndFaults_large :
    4096 ≤ (State.reset.setI 0xFFFF).i.toNat + 2 ∧ 4096 ≤ (State.reset.setI 0xFFFF).i.toNat + (0 : Reg).val ∧
      (0 < 1 ∧ 1 < 16 ∧ 4096 ≤ (State.reset.setI 4096).i.toNat + 1 - 1) := by decide
theorem witness_StoredInstructionRunsNext :
    let s : State := { (alu 0 0x6A 0x03 0).setI 0x202 with pc := 0x202 }
    s.faulted = false ∧ s.memWf = true ∧ 0 < (1 : Reg).val ∧ s.i.toNat + (1 : Reg).val < 4096 ∧ s.pc = s.i ∧
      decode (s.reg 0 ++ s.reg 1) = .ok (.ldImm 10 0x03) := by decide

/-- A sprite of 15 rows at the end of memory, its last row 0x80. -/
def lastSprite : State := { State.reset with i := 4081, mem := [(4095, 0x80)] }

/-- Row 14 of lastSprite lands on cell 64 * 14 and on no other; with that cell set the draw collides. -/
theorem witness_DrawFlipsTheSpriteMask_hit :
    (15 < 16 ∧ lastSprite.i.toNat + 15 - 1 < 4096) ∧ inSprite lastSprite 0 0 15 896 ∧
      inSprite { lastSprite with fb := togglePixel lastSprite.fb 0 14 } 0 0 15 896 ∧
      cell (togglePixel lastSprite.fb 0 14) 896 = true :=
  ⟨by decide, ⟨14, 0, by decide, by decide, by decide, by decide⟩, ⟨14, 0, by decide, by decide, by decide, by decide⟩,
    by decide⟩
/-- A sprite of no rows hits no cell, wherever `I` points. -/
theorem witness_DrawFlipsTheSpriteMask_miss :
    0 < 16 ∧ (0 = 0 ∨ (State.reset.setI 0xFFFF).i.toNat + 0 - 1 < 4096) ∧
      ∀ k, ¬ inSprite (State.reset.setI 0xFFFF) 0 0 0 k :=
  ⟨by decide, Or.inl rfl, fun _ ⟨_, _, h, _⟩ => absurd h (Nat.not_lt_zero _)⟩
theorem witness_DrawTwiceRestoresTheScreen :
    15 < 16 ∧ lastSprite.i.toNat + 15 - 1 < 4096 ∧ ∀ k, cell lastSprite.fb k = false :=
  ⟨by decide, by decide, fun _ => pixel_clearFb _ _⟩
theorem witness_SkipsOnKeys :
    ((pressed 0 15 2 15).reg 2).toNat = (15 : KeyIndex).val ∧ (pressed 0 15 2 15).key 15 = true ∧
      (State.reset.reg 2).toNat = (0 : KeyIndex).val ∧ State.reset.key 0 = false := by decide
theorem witness_KeyNumberFaults : 16 ≤ ((start 0).setReg 2 16 |>.reg 2).toNat := by decide
theorem witness_KeyWait_pressed :
    (pressed 0 5 0 0).key 5 = true ∧ ∀ j, j < (5 : KeyIndex) → (pressed 0 5 0 0).key j = false := by decide
theorem witness_KeyWait_none :
    let s : State := { State.reset with pc := 4094, mem := [(4094, 0xF3), (4095, 0x0A)] }
    s.faulted = false ∧ s.pc.toNat ≤ 4094 ∧ (∀ k, s.key k = false) ∧
      s.byteAt s.pc.toNat ++ s.byteAt (s.pc.toNat + 1) = 0xF#4 ++ fieldOf 3 ++ 0x0A#8 := by decide
theorem witness_ResetValues : 79 < 80 ∧ 80 ≤ 80 := by decide
theorem witness_OnlyTheTickCountsDown :
    let s := (start 0xF015).setReg 0 5
    HostOp.step ≠ .tick ∧ HostOp.step ≠ .reset ∧ hostOp .step s = .next (s.advance.setDt 5) ∧
      decode (s.byteAt s.pc.toNat ++ s.byteAt (s.pc.toNat + 1)) = .ok (.ldDtVx 0) :=
  ⟨nofun, nofun, next_of_after (by decide), by decide⟩
/-- The image of `n` bytes 0x01. -/
def ones (n : Nat) : List Byte := List.replicate n 0x01

theorem length_ones (n : Nat) : (ones n).length = n := List.length_replicate

theorem witness_LoadCopiesOrIsRejected :
    (ones 3584).length ≤ 3584 ∧ State.reset.memWf = true ∧ 3584 < (ones 3585).length :=
  ⟨le_of_eq (length_ones _), rfl, by rw [length_ones]; omega⟩
theorem witness_LoadBurstIsLoad_lengths :
    (ones 3584).length ≤ 3584 ∧ (3584 < 3585 ∧ 3585 < 8192) ∧ (3584 < 8191 ∧ 8191 < 8192) :=
  ⟨le_of_eq (length_ones _), by omega, by omega⟩

/-- The pins that present no command, with the unused code 7 and an invalid `STEP`. -/
def idlePins : List Pins := [⟨false, true, 7, 3, true, 1, 0xAA⟩, ⟨false, false, 1, 0, false, 0, 0⟩]

/-- A burst of two bytes with idle edges before, between and after. -/
def slowBurst : List Pins :=
  idlePins ++ [pinsLoadBegin 2] ++ idlePins ++ [pinsLoadData 0x12] ++ idlePins ++ [pinsLoadData 0x00] ++ idlePins

theorem witness_LoadBurstIsLoad_idle :
    [(0x12 : Byte), 0x00].length ≤ 3584 ∧ (∀ p, p ∈ slowBurst → p.rst = false) ∧
      slowBurst.filter (fun p => command p != .idle) = loadBurst [0x12, 0x00] := by decide
theorem witness_EndOfRunIsAFixpoint : (start 0x1200).runEnded = true := by decide

/-- Two cores whose tables differ at address 0 and whose memories hold the same bytes. -/
def otherCore : State := { State.reset with glyph := defaultGlyph.set 0 0x55, mem := [(0, 0xF0)] }

theorem witness_GlyphTableIsOrdinaryMemory :
    State.reset.memWf = true ∧ otherCore.memWf = true ∧
      otherCore = { State.reset with glyph := otherCore.glyph, mem := otherCore.mem } ∧
      otherCore.glyph ≠ State.reset.glyph ∧ (∀ a, otherCore.byteAt a = State.reset.byteAt a) ∧
      exec .nop State.reset = .next State.reset := by
  refine ⟨rfl, by decide, rfl, by decide, fun a => ?_, rfl⟩
  by_cases h : a = 0
  · subst h; decide
  · have h' : ¬ 0 = a := fun e => h e.symm
    simp [State.byteAt, otherCore, State.reset, readByte, resetByte, h, h']

/-- With another table, a reset puts that table in memory. -/
theorem test_reset_with_other_table : ((otherCore.setPc 0x300).hostReset.byteAt 0, otherCore.hostReset.pc) = (0x55, 0x200) := by
  decide

end Sys2Proof.Machine.Tests
end

section
/-! PROOFS. The invariant of the core (Inv) is kept by every instruction, step, host operation and sequence of host
operations (10_state.md R24, 50_host_interface.md R190). -/

namespace Sys2Proof.Machine

/-! ### The invariant under the updates a host operation is made of -/

/-- Only `PC`, memory, the stack and the fault record matter to the invariant: an update of the other pieces keeps it,
and one of `PC` keeps it up to R24's bound. -/
theorem Inv.of_frame {s t : State} (h : Inv s) (hpc : t.pc.toNat ≤ 0x10FE)
    (ht : t = { s with
      pc := t.pc, v := t.v, i := t.i, sp := t.sp, dt := t.dt, st := t.st, keys := t.keys, fb := t.fb,
      draws := t.draws }) : Inv t := by
  rw [ht]
  exact ⟨h.mem_wf, hpc, h.stack_le, h.record_clear⟩

theorem Inv.takeFault {s : State} (h : Inv s) {c : FaultCause} (hc : c ≠ .noFault) (ir info : Word) :
    Inv (s.takeFault c ir info) :=
  ⟨h.mem_wf, h.pc_le, h.stack_le, fun h0 => absurd h0 hc⟩

theorem Inv.putBytes {s : State} (h : Inv s) {a : Nat} {bs : List Byte} (hr : a + bs.length ≤ 4096) :
    Inv (s.putBytes a bs) :=
  ⟨putBytes_memWf h.mem_wf hr, h.pc_le, h.stack_le, h.record_clear⟩

/-- A return address of at most 4096 may go to any stack slot (R24, R103). -/
theorem Inv.setStack {s : State} (h : Inv s) {k : Nat} (hk : k < 16) {a : Word} (ha : a.toNat ≤ 4096) :
    Inv { s with stack := s.stack.set k a hk } := by
  refine ⟨h.mem_wf, h.pc_le, fun j => ?_, h.record_clear⟩
  simp only [Fin.getElem_fin, Vector.getElem_set]
  split
  · exact ha
  · exact h.stack_le j

/-- A skip from an advanced `PC` stays below R24's bound. -/
theorem Inv.skipIf {s : State} (h : Inv s) (hpc : s.pc.toNat ≤ 4096) (c : Bool) : Inv (s.skipIf c) := by
  cases c with
  | false => exact h
  | true => exact h.of_frame (by rw [State.skipIf_pc, if_pos rfl]; bv_omega) rfl

/-- The fetch's advance of a `PC` that could be fetched from. -/
theorem Inv.advance {s : State} (h : Inv s) (hpc : s.pc.toNat ≤ 4094) : Inv s.advance :=
  h.of_frame (by rw [State.advance_pc]; bv_omega) rfl

/-- R36: the state after reset meets the invariant, whatever the glyph table. -/
theorem resetWith_inv (g : GlyphTable) : Inv (State.resetWith g) :=
  ⟨resetWith_memWf g, by rw [State.resetWith_pc]; decide, fun k => by simp [State.reset], fun _ => ⟨rfl, rfl⟩⟩

theorem hostReset_inv (s : State) : Inv s.hostReset :=
  (resetWith_inv s.glyph).of_frame (resetWith_inv s.glyph).pc_le rfl

/-! ### Jump targets (R24) -/

theorem immAddr_le (nnn : Imm12) : (immAddr nnn).toNat ≤ 4095 := by
  have := nnn.isLt
  simp only [immAddr, zext16, BitVec.toNat_setWidth]
  omega

/-- The largest target of `Bnnn`, 0xFF + 0xFFF, is the largest `PC` of R24. -/
theorem indexedTarget_le (v : Byte) (nnn : Imm12) : (indexedTarget v nnn).toNat ≤ 0x10FE := by
  have := nnn.isLt
  have := v.isLt
  simp only [indexedTarget, zext16, BitVec.toNat_add, BitVec.toNat_setWidth]
  omega

/-! ### Instructions, steps, host operations and their sequences -/

/-- Every instruction keeps the invariant, from a `PC` that the fetch has advanced. -/
theorem exec_keeps_inv {i : Instr} {s t : State} (h : Inv s) (hlo : 2 ≤ s.pc.toNat) (hhi : s.pc.toNat ≤ 4096)
    (he : exec i s = .next t) : Inv t := by
  cases i with
  | ret =>
    rcases execRet_cases s with ⟨hk, _, _, hc⟩ | ⟨_, hc⟩ <;> cases hc.symm.trans he
    · exact h.of_frame ((h.stack_le ⟨_, hk⟩).trans (by decide)) rfl
    · exact h.takeFault (by decide) _ _
  | call nnn =>
    rcases execCall_cases nnn s with ⟨hk, _, hc⟩ | ⟨_, hc⟩ <;> cases hc.symm.trans he
    · exact (h.setStack hk hhi).of_frame ((immAddr_le nnn).trans (by decide)) rfl
    · exact h.takeFault (by decide) _ _
  | jp nnn => cases he; exact h.of_frame ((immAddr_le nnn).trans (by decide)) rfl
  | jpV0 nnn => cases he; exact h.of_frame (indexedTarget_le _ nnn) rfl
  | seImm | sneImm | seReg | sneReg => cases he; exact h.skipIf hhi _
  | skp x =>
    rcases execSkp_cases x s with ⟨_, _, hc⟩ | ⟨_, hc⟩ <;> cases hc.symm.trans he
    · exact h.skipIf hhi _
    · exact h.takeFault (by decide) _ _
  | sknp x =>
    rcases execSknp_cases x s with ⟨_, _, hc⟩ | ⟨_, hc⟩ <;> cases hc.symm.trans he
    · exact h.skipIf hhi _
    · exact h.takeFault (by decide) _ _
  | ldVxK x =>
    rcases execLdVxK_cases x s with ⟨_, _, _, hc⟩ | ⟨_, hc⟩ <;> cases hc.symm.trans he
    · exact h.of_frame h.pc_le rfl
    · exact h.of_frame (by rw [State.setPc_pc]; bv_omega) rfl
  | drw x y n =>
    rcases execDrw_cases x y n s with ⟨_, _, _, hc⟩ | ⟨_, hc⟩ <;> cases hc.symm.trans he
    · exact h.of_frame h.pc_le rfl
    · exact h.takeFault (by decide) _ _
  | ldB x =>
    rcases execLdB_cases x s with ⟨hr, hc⟩ | ⟨_, hc⟩ <;> cases hc.symm.trans he
    · exact h.putBytes hr
    · exact h.takeFault (by decide) _ _
  | ldMemVx x =>
    rcases execLdMemVx_cases x s with ⟨hr, hc⟩ | ⟨_, hc⟩ <;> cases hc.symm.trans he
    · exact h.putBytes (by rwa [length_regsUpTo])
    · exact h.takeFault (by decide) _ _
  | ldVxMem x =>
    rcases execLdVxMem_cases x s with ⟨_, hc⟩ | ⟨_, hc⟩ <;> cases hc.symm.trans he
    · exact h.of_frame h.pc_le rfl
    · exact h.takeFault (by decide) _ _
  | _ => cases he; exact h.of_frame h.pc_le rfl

theorem step_keeps_inv {s t : State} (h : Inv s) (ht : step s = .next t) : Inv t := by
  rcases step_cases s with ⟨_, he⟩ | ⟨_, _, he⟩ | ⟨ir, _, _, hpc, _, _, he⟩ | ⟨_, i, _, hpc, _, _, he⟩
  · cases he.symm.trans ht; exact h
  · cases he.symm.trans ht; exact h.takeFault (by decide) _ _
  · cases he.symm.trans ht; exact (h.advance hpc).takeFault (by decide) _ _
  · have hadv : s.advance.pc.toNat = s.pc.toNat + 2 := by rw [State.advance_pc]; bv_omega
    exact exec_keeps_inv (h.advance hpc) (by omega) (by omega) (he.symm.trans ht)

theorem hostOp_keeps_inv {op : HostOp} {s t : State} (h : Inv s) (ht : hostOp op s = .next t) : Inv t := by
  cases op with
  | reset => cases ht; exact hostReset_inv s
  | load image =>
    cases ht
    rcases load_cases s image with ⟨hl, he⟩ | ⟨_, he⟩ <;> rw [he]
    · exact h.putBytes (by omega)
    · exact h
  | step => exact step_keeps_inv h ht
  | tick | setKey => cases ht; exact h.of_frame h.pc_le rfl
  | display => cases ht; exact h

/-- A sequence that ends in a next state is its first operation, which does too, and the rest. -/
theorem runOps_cons {op : HostOp} {ops : List HostOp} {s t : State} (h : runOps (op :: ops) s = .next t) :
    ∃ r, hostOp op s = .next r ∧ runOps ops r = .next t := by
  unfold runOps at h
  cases hr : hostOp op s with
  | next r => exact ⟨r, rfl, by rwa [hr] at h⟩
  | fault f => cases f
  | refused r => rw [hr] at h; cases h

theorem runOps_keeps_inv {ops : List HostOp} {s t : State} (h : Inv s) (ht : runOps ops s = .next t) : Inv t := by
  induction ops generalizing s with
  | nil => cases ht; exact h
  | cons op ops ih =>
    obtain ⟨r, hr, hrest⟩ := runOps_cons ht
    exact ih (hostOp_keeps_inv h hr) hrest

/-- Settles O14, by induction on the list of operations. -/
theorem everyInterleavingKeepsInvariant : Obligations.EveryInterleavingKeepsInvariant :=
  fun _ _ _ h ht => runOps_keeps_inv h ht

end Sys2Proof.Machine

end

section
/-! PROOFS. The parameter `GLYPH` (00_scope.md R6): no operation writes it, and an instruction sees of the table and the
memory nothing but the bytes memory reads as (20_memory.md R53). -/

namespace Sys2Proof.Machine

/-! ### Cores that differ in their table and memory only -/

/-- The core with another glyph table and another memory. -/
def State.withMemory (s : State) (g : GlyphTable) (m : Memory) : State := { s with glyph := g, mem := m }

section Operands

variable (s : State) (g : GlyphTable) (m : Memory)

@[simp] theorem State.withMemory_pc : (s.withMemory g m).pc = s.pc := rfl
@[simp] theorem State.withMemory_i : (s.withMemory g m).i = s.i := rfl
@[simp] theorem State.withMemory_reg (r : Reg) : (s.withMemory g m).reg r = s.reg r := rfl
@[simp] theorem State.withMemory_lowestPressed : (s.withMemory g m).lowestPressed = s.lowestPressed := rfl

theorem State.withMemory_skipIf (c : Bool) : (s.withMemory g m).skipIf c = (s.skipIf c).withMemory g m := by
  cases c <;> rfl

theorem State.withMemory_push (a : Word) :
    (s.withMemory g m).push a = (s.push a).map fun t => t.withMemory g m := by
  rcases push_cases s a with ⟨h, _, he⟩ | ⟨h, he⟩ <;> rw [he]
  · exact dif_pos h
  · exact dif_neg h.not_lt

theorem State.withMemory_pop : (s.withMemory g m).pop = s.pop.map fun p => (p.1, p.2.withMemory g m) := by
  rcases pop_cases s with ⟨_, _, h, he⟩ | ⟨h, he⟩ <;> rw [he]
  · exact dif_pos h
  · exact dif_neg h.not_gt

theorem State.withMemory_memWrite (a : Nat) (bs : List Byte) :
    (s.withMemory g m).memWrite a bs = (s.memWrite a bs).map fun t => t.withMemory g (writeBytes g m a bs) := by
  unfold State.memWrite
  split <;> rfl

end Operands

theorem readBytes_congr {g g' : GlyphTable} {m m' : Memory} (h : ∀ a, readByte g m a = readByte g' m' a) (a k : Nat) :
    readBytes g m a k = readBytes g' m' a k := by
  induction k generalizing a with
  | zero => rfl
  | succ k ih => rw [readBytes, readBytes, h, ih]

theorem memRead_congr {s r : State} (h : ∀ a, r.byteAt a = s.byteAt a) (a k : Nat) : r.memRead a k = s.memRead a k := by
  unfold State.memRead
  rw [readBytes_congr h]

/-- The same store in two memories of the same bytes leaves the same bytes. -/
theorem byteAt_putBytes_congr {s r : State} (hs : s.memWf = true) (hr : r.memWf = true)
    (hb : ∀ a, r.byteAt a = s.byteAt a) {a : Nat} {bs : List Byte} (hl : bs.length = 0 ∨ a + bs.length ≤ 4096) (c : Nat) :
    (r.putBytes a bs).byteAt c = (s.putBytes a bs).byteAt c := by
  by_cases hc : a ≤ c ∧ c < a + bs.length
  · obtain ⟨k, rfl⟩ := Nat.exists_eq_add_of_le hc.1
    have hk : k < bs.length := by omega
    have hl : a + bs.length ≤ 4096 := by omega
    rw [byteAt_putBytes_inside hr hl hk, byteAt_putBytes_inside hs hl hk]
  · have hout : c < a ∨ a + bs.length ≤ c := by omega
    rw [byteAt_putBytes_of_outside hout, byteAt_putBytes_of_outside hout, hb]

/-! ### Instructions -/

/-- An instruction that stores nothing does the same in another core whose memory holds the same bytes. -/
theorem exec_withMemory {i : Instr} {s t : State} {g : GlyphTable} {m : Memory} (hi : mayWrite i s .mem = false)
    (hb : ∀ a, (s.withMemory g m).byteAt a = s.byteAt a) (h : exec i s = .next t) :
    exec i (s.withMemory g m) = .next (t.withMemory g m) := by
  cases i with
  | ldB | ldMemVx => cases hi
  | ret =>
    simp only [exec, execRet, State.withMemory_pop] at h ⊢
    cases hp : s.pop <;> rw [hp] at h <;> cases h <;> rfl
  | call nnn =>
    simp only [exec, execCall, State.withMemory_pc, State.withMemory_push] at h ⊢
    cases hp : s.push s.pc <;> rw [hp] at h <;> cases h <;> rfl
  | seImm | sneImm | seReg | sneReg => cases h; exact congrArg _ (State.withMemory_skipIf s g m _)
  | skp x =>
    simp only [exec, execSkp, State.withMemory_reg] at h ⊢
    cases hk : keyOperand (s.reg x) <;> rw [hk] at h <;> cases h
    · rfl
    · exact congrArg _ (State.withMemory_skipIf s g m _)
  | sknp x =>
    simp only [exec, execSknp, State.withMemory_reg] at h ⊢
    cases hk : keyOperand (s.reg x) <;> rw [hk] at h <;> cases h
    · rfl
    · exact congrArg _ (State.withMemory_skipIf s g m _)
  | ldVxK x =>
    simp only [exec, execLdVxK, State.withMemory_lowestPressed] at h ⊢
    cases hk : s.lowestPressed <;> rw [hk] at h <;> cases h <;> rfl
  | drw x y n =>
    simp only [exec, execDrw, State.withMemory_i, memRead_congr hb] at h ⊢
    cases hm : s.memRead s.i.toNat n <;> rw [hm] at h <;> cases h <;> rfl
  | ldVxMem x =>
    simp only [exec, execLdVxMem, State.withMemory_i, memRead_congr hb] at h ⊢
    cases hm : s.memRead s.i.toNat (blockLength x) <;> rw [hm] at h <;> cases h <;> rfl
  | _ => cases h; rfl

/-- R38: an instruction that stores nothing keeps the memory and the table. -/
theorem exec_keeps_memory {i : Instr} {s t : State} (hi : mayWrite i s .mem = false) (h : exec i s = .next t) :
    t.mem = s.mem ∧ t.glyph = s.glyph := by
  have hsame : exec i s = .next (t.withMemory s.glyph s.mem) := exec_withMemory hi (fun _ => rfl) h
  have ht : t = t.withMemory s.glyph s.mem := Host.Outcome.next.inj (h.symm.trans hsame)
  rw [ht]
  exact ⟨rfl, rfl⟩

/-- The bytes the two storing instructions store at `I` (R153, R154). -/
def storedBytes (s : State) : Instr → List Byte
  | .ldB x => bcdDigits (s.reg x)
  | .ldMemVx x => s.regsUpTo x
  | _ => []

/-- R38, R156: an instruction that may write memory stores its bytes at `I`, or takes the data addressing fault. -/
theorem exec_of_store {i : Instr} {s : State} (hi : mayWrite i s .mem = true) :
    exec i s = (s.memWrite s.i.toNat (storedBytes s i)).elim
      (.next (s.takeFault .addrData (encode i) (addrInfo s.i))) .next := by
  cases i with
  | ldB x => simp only [exec, execLdB, storedBytes]; cases s.memWrite s.i.toNat (bcdDigits (s.reg x)) <;> rfl
  | ldMemVx x => simp only [exec, execLdMemVx, storedBytes]; cases s.memWrite s.i.toNat (s.regsUpTo x) <;> rfl
  | _ => cases hi

/-- Two cores of the same bytes execute every instruction to next states of the same bytes. -/
theorem exec_sameBytes {i : Instr} {s t : State} {g : GlyphTable} {m : Memory} (hs : s.memWf = true)
    (hm : (s.withMemory g m).memWf = true) (hb : ∀ a, (s.withMemory g m).byteAt a = s.byteAt a)
    (h : exec i s = .next t) :
    ∃ m', exec i (s.withMemory g m) = .next (t.withMemory g m') ∧ ∀ a, (t.withMemory g m').byteAt a = t.byteAt a := by
  cases hw : mayWrite i s .mem with
  | false =>
    refine ⟨m, exec_withMemory hw hb h, fun a => ?_⟩
    obtain ⟨hmem, hglyph⟩ := exec_keeps_memory hw h
    rw [State.byteAt, State.byteAt, hmem, hglyph]
    exact hb a
  | true =>
    have hw' : mayWrite i (s.withMemory g m) .mem = true := hw
    have hbytes : storedBytes (s.withMemory g m) i = storedBytes s i := rfl
    rw [exec_of_store hw] at h
    rw [exec_of_store hw', hbytes, State.withMemory_i, State.withMemory_memWrite]
    rcases memWrite_cases s s.i.toNat (storedBytes s i) with ⟨hr, he⟩ | ⟨_, he⟩ <;> rw [he] at h ⊢ <;> cases h
    · exact ⟨_, rfl, byteAt_putBytes_congr hs hm hb hr⟩
    · exact ⟨m, rfl, hb⟩

/-! ### The parameter GLYPH (R6, D4) -/

theorem exec_glyph {i : Instr} {s t : State} (h : exec i s = .next t) : t.glyph = s.glyph := by
  cases hw : mayWrite i s .mem with
  | false => exact (exec_keeps_memory hw h).2
  | true =>
    rw [exec_of_store hw] at h
    rcases memWrite_cases s s.i.toNat (storedBytes s i) with ⟨_, he⟩ | ⟨_, he⟩ <;> rw [he] at h <;> cases h <;> rfl

theorem step_glyph {s t : State} (h : step s = .next t) : t.glyph = s.glyph := by
  rcases step_cases s with ⟨_, he⟩ | ⟨_, _, he⟩ | ⟨_, _, _, _, _, _, he⟩ | ⟨_, _, _, _, _, _, he⟩
  · cases he.symm.trans h; rfl
  · cases he.symm.trans h; rfl
  · cases he.symm.trans h; rfl
  · exact exec_glyph (s := s.advance) (he.symm.trans h)

theorem hostOp_glyph {op : HostOp} {s t : State} (h : hostOp op s = .next t) : t.glyph = s.glyph := by
  cases op with
  | step => exact step_glyph h
  | load image =>
    cases h
    rcases load_cases s image with ⟨_, he⟩ | ⟨_, he⟩ <;> rw [he] <;> rfl
  | reset | tick | setKey | display => cases h; rfl

/-- Settles O51: no operation writes the table, and an instruction reads and writes memory only byte by byte. -/
theorem glyphTableIsOrdinaryMemory : Obligations.GlyphTableIsOrdinaryMemory := by
  refine ⟨fun s t op h => hostOp_glyph h, fun i s r t hs hr hframe hb h => ?_⟩
  obtain ⟨g, m, rfl⟩ : ∃ g m, r = s.withMemory g m := ⟨_, _, hframe⟩
  obtain ⟨m', hu, hb'⟩ := exec_sameBytes hs hr hb h
  exact ⟨_, hu, rfl, hb'⟩

end Sys2Proof.Machine

end

section
/-! PROOFS. The invariant of the core at reset and over a step (10_state.md R24), and the reset values (R36). -/

namespace Sys2Proof.Machine

/-- Settles O12: each of the four ways a step goes keeps the invariant. -/
theorem stepKeepsInvariant : Obligations.StepKeepsInvariant :=
  fun _ _ h ht => step_keeps_inv h ht

/-- Settles O13: `State.reset` is the reset state of the core with the default glyph table. -/
theorem resetMeetsInvariant : Obligations.ResetMeetsInvariant :=
  ⟨resetWith_inv defaultGlyph, resetWith_inv⟩

/-! ### Reset values -/

theorem resetByte_of_lt (g : GlyphTable) {a : Nat} (h : a < 80) : resetByte g a = g[a] := dif_pos h

theorem resetByte_of_ge (g : GlyphTable) {a : Nat} (h : 80 ≤ a) : resetByte g a = 0 := dif_neg h.not_gt

theorem hostReset_byteAt (s : State) (a : Nat) : s.hostReset.byteAt a = resetByte s.glyph a := rfl

theorem hostReset_reg (s : State) (r : Reg) : s.hostReset.reg r = 0 := Vector.getElem_replicate r.isLt

theorem hostReset_stack_slot (s : State) (k : Fin 16) : s.hostReset.stack[k] = 0 := Vector.getElem_replicate k.isLt

theorem hostReset_key (s : State) (k : KeyIndex) : s.hostReset.key k = false := Vector.getElem_replicate k.isLt

theorem hostReset_cell (s : State) (k : Fin 2048) : cell s.hostReset.fb k = false := pixel_clearFb _ _

/-- Settles O45: every register, slot, key and cell of a reset core is zero, and its memory reads as the reset bytes of
its own glyph table. -/
theorem resetValues : Obligations.ResetValues := fun s =>
  ⟨s.hostReset, rfl, rfl, rfl, hostReset_reg s, rfl, hostReset_stack_slot s, rfl, rfl, rfl, hostReset_key s,
    hostReset_cell s, fun a h => (hostReset_byteAt s a).trans (resetByte_of_lt _ h),
    fun a h => (hostReset_byteAt s a).trans (resetByte_of_ge _ h), rfl, rfl, rfl⟩

end Sys2Proof.Machine

end

section
/-! PROOFS. Which pieces of state an instruction may change (the access matrix, 10_state.md R38), and what a flag write
leaves in `VF` (R22). -/

namespace Sys2Proof.Machine

/-! ### An update keeps every piece but its own -/

theorem Piece.same_refl (p : Piece) (s : State) : p.same s s := by cases p <;> rfl

section Updates

variable {p : Piece} {s t : State} (h : p.same s t)

include h

theorem Piece.same.setPc (hp : p ≠ .pc) (a : Word) : p.same s (t.setPc a) := by
  cases p with
  | pc => exact absurd rfl hp
  | _ => exact h

theorem Piece.same.setReg {x : Reg} (hp : p ≠ .v x) (b : Byte) : p.same s (t.setReg x b) := by
  cases p with
  | v r => exact (State.setReg_reg t x r b).trans ((if_neg fun hr => hp (congrArg _ hr)).trans h)
  | _ => exact h

theorem Piece.same.setI (hp : p ≠ .i) (a : Word) : p.same s (t.setI a) := by
  cases p with
  | i => exact absurd rfl hp
  | _ => exact h

theorem Piece.same.setDt (hp : p ≠ .dt) (b : Byte) : p.same s (t.setDt b) := by
  cases p with
  | dt => exact absurd rfl hp
  | _ => exact h

theorem Piece.same.setSt (hp : p ≠ .st) (b : Byte) : p.same s (t.setSt b) := by
  cases p with
  | st => exact absurd rfl hp
  | _ => exact h

theorem Piece.same.setSp (hp : p ≠ .sp) (n : Fin 17) : p.same s { t with sp := n } := by
  cases p with
  | sp => exact absurd rfl hp
  | _ => exact h

theorem Piece.same.setFb (hp : p ≠ .fb) (f : Framebuffer) : p.same s { t with fb := f } := by
  cases p with
  | fb => exact absurd rfl hp
  | _ => exact h

theorem Piece.same.putBytes (hp : p ≠ .mem) (a : Nat) (bs : List Byte) : p.same s (t.putBytes a bs) := by
  cases p with
  | mem => exact absurd rfl hp
  | _ => exact h

theorem Piece.same.setStack {k : Nat} (hk : k < 16) (hp : p ≠ .stack ⟨k, hk⟩) (a : Word) :
    p.same s { t with stack := t.stack.set k a hk } := by
  cases p with
  | stack j => exact (Vector.getElem_set_ne hk j.isLt fun hj => hp (congrArg _ (Fin.ext hj.symm))).trans h
  | _ => exact h

/-- A block load changes only the registers it counts (R155). -/
theorem Piece.same.fillRegs {bs : List Byte} (hp : ∀ r : Reg, p = .v r → bs.length ≤ r.val) :
    p.same s { t with v := fillRegs t.v 0 bs } := by
  cases p with
  | v r =>
    have hr : ¬ (0 ≤ r.val ∧ r.val < 0 + bs.length) := by have := hp r rfl; omega
    exact (getElem_fillRegs t.v 0 bs r.val r.isLt).trans ((dif_neg hr).trans h)
  | _ => exact h

theorem Piece.same.draw : p.same s t.draw.2 := by cases p <;> exact h

/-- The fault record is none of the matrix's pieces. -/
theorem Piece.same.takeFault (c : FaultCause) (ir info : Word) : p.same s (t.takeFault c ir info) := by
  cases p <;> exact h

theorem Piece.same.skipIf (hp : p ≠ .pc) (c : Bool) : p.same s (t.skipIf c) := by
  cases c with
  | false => exact h
  | true => exact h.setPc hp _

theorem Piece.same.setRegFlag {x : Reg} (hx : p ≠ .v x) (hf : p ≠ .v VF) (b : Byte) (f : Bool) :
    p.same s (t.setRegFlag x b f) :=
  (h.setReg hx b).setReg hf _

end Updates

/-! ### The rows of the matrix -/

theorem mayWrite_call {nnn : Imm12} {s : State} {p : Piece} (h : mayWrite (.call nnn) s p = false) :
    p ≠ .sp ∧ p ≠ .pc ∧ ∀ hk : s.sp.val < 16, p ≠ .stack ⟨s.sp.val, hk⟩ := by
  refine ⟨?_, ?_, fun hk => ?_⟩ <;> rintro rfl <;> simp [mayWrite] at h

theorem mayWrite_ldVxMem {x r : Reg} {s : State} (h : mayWrite (.ldVxMem x) s (.v r) = false) : x.val < r.val := by
  simpa [mayWrite] using h

/-- R38: an instruction keeps every piece that its row of the access matrix does not list as written. -/
theorem exec_keeps_piece {i : Instr} {s t : State} {p : Piece} (he : exec i s = .next t)
    (hp : mayWrite i s p = false) : p.same s t := by
  have h := p.same_refl s
  cases i with
  | nop => cases he; exact h
  | cls => cases he; exact h.setFb (ne_of_beq_false hp) _
  | jp | jpV0 => cases he; exact h.setPc (ne_of_beq_false hp) _
  | seImm | sneImm | seReg | sneReg => cases he; exact h.skipIf (ne_of_beq_false hp) _
  | ldImm | addImm | ldReg | or | and | xor | ldVxDt => cases he; exact h.setReg (ne_of_beq_false hp) _
  | add | sub | shr | subn | shl =>
    obtain ⟨hx, hf⟩ := Bool.or_eq_false_iff.1 hp
    cases he; exact h.setRegFlag (ne_of_beq_false hx) (ne_of_beq_false hf) _ _
  | rnd => cases he; exact h.draw.setReg (ne_of_beq_false hp) _
  | ldI | addI | ldF => cases he; exact h.setI (ne_of_beq_false hp) _
  | ldDtVx => cases he; exact h.setDt (ne_of_beq_false hp) _
  | ldStVx => cases he; exact h.setSt (ne_of_beq_false hp) _
  | ret =>
    obtain ⟨hsp, hpc⟩ := Bool.or_eq_false_iff.1 hp
    rcases execRet_cases s with ⟨_, _, _, hc⟩ | ⟨_, hc⟩ <;> cases hc.symm.trans he
    · exact (h.setPc (ne_of_beq_false hpc) _).setSp (ne_of_beq_false hsp) _
    · exact h.takeFault _ _ _
  | call nnn =>
    obtain ⟨hsp, hpc, hslot⟩ := mayWrite_call hp
    rcases execCall_cases nnn s with ⟨hk, _, hc⟩ | ⟨_, hc⟩ <;> cases hc.symm.trans he
    · exact ((h.setStack hk (hslot hk) _).setSp hsp _).setPc hpc _
    · exact h.takeFault _ _ _
  | drw x y n =>
    obtain ⟨hfb, hf⟩ := Bool.or_eq_false_iff.1 hp
    rcases execDrw_cases x y n s with ⟨_, _, _, hc⟩ | ⟨_, hc⟩ <;> cases hc.symm.trans he
    · exact (h.setFb (ne_of_beq_false hfb) _).setReg (ne_of_beq_false hf) _
    · exact h.takeFault _ _ _
  | skp x =>
    rcases execSkp_cases x s with ⟨_, _, hc⟩ | ⟨_, hc⟩ <;> cases hc.symm.trans he
    · exact h.skipIf (ne_of_beq_false hp) _
    · exact h.takeFault _ _ _
  | sknp x =>
    rcases execSknp_cases x s with ⟨_, _, hc⟩ | ⟨_, hc⟩ <;> cases hc.symm.trans he
    · exact h.skipIf (ne_of_beq_false hp) _
    · exact h.takeFault _ _ _
  | ldVxK x =>
    obtain ⟨hx, hpc⟩ := Bool.or_eq_false_iff.1 hp
    rcases execLdVxK_cases x s with ⟨_, _, _, hc⟩ | ⟨_, hc⟩ <;> cases hc.symm.trans he
    · exact h.setReg (ne_of_beq_false hx) _
    · exact h.setPc (ne_of_beq_false hpc) _
  | ldB x =>
    rcases execLdB_cases x s with ⟨_, hc⟩ | ⟨_, hc⟩ <;> cases hc.symm.trans he
    · exact h.putBytes (ne_of_beq_false hp) _ _
    · exact h.takeFault _ _ _
  | ldMemVx x =>
    rcases execLdMemVx_cases x s with ⟨_, hc⟩ | ⟨_, hc⟩ <;> cases hc.symm.trans he
    · exact h.putBytes (ne_of_beq_false hp) _ _
    · exact h.takeFault _ _ _
  | ldVxMem x =>
    rcases execLdVxMem_cases x s with ⟨_, hc⟩ | ⟨_, hc⟩ <;> cases hc.symm.trans he
    · refine h.fillRegs fun r hr => ?_
      rw [length_readBytes]
      exact mayWrite_ldVxMem (hr ▸ hp)
    · exact h.takeFault _ _ _

/-- Settles O15, by the updates each instruction is made of. -/
theorem accessMatrixIsRespected : Obligations.AccessMatrixIsRespected :=
  fun _ _ _ _ he hp => exec_keeps_piece he hp

/-! ### Flag writes (R22) -/

/-- Whatever is written before it, a flag write leaves 0x00 or 0x01 in `VF`. -/
theorem setFlag_VF (s : State) (f : Bool) : (s.setFlag f).reg VF = 0 ∨ (s.setFlag f).reg VF = 1 := by
  rw [State.setFlag_reg, if_pos rfl]
  rcases flagByte_cases f with ⟨_, h⟩ | ⟨_, h⟩
  · exact Or.inr h
  · exact Or.inl h

theorem takeFault_faulted {s : State} {c : FaultCause} (hc : c ≠ .noFault) (ir info : Word) :
    (s.takeFault c ir info).faulted = true := (State.faulted_iff _).2 hc

/-- Settles O16: the flag is the last write of each of the six instructions, unless a sprite takes its fault. -/
theorem flagWritesAreZeroOrOne : Obligations.FlagWritesAreZeroOrOne := by
  intro i s t hw _ he ht
  cases i with
  | add | sub | shr | subn | shl => cases he; exact setFlag_VF _ _
  | drw x y n =>
    rcases execDrw_cases x y n s with ⟨_, d, _, hc⟩ | ⟨_, hc⟩ <;> cases hc.symm.trans he
    · exact setFlag_VF _ _
    · exact absurd (takeFault_faulted (by decide) _ _) (Bool.eq_false_iff.1 ht)
  | _ => cases hw

end Sys2Proof.Machine

end

section
/-! PROOFS. What no instruction reads: the sound timer (10_state.md R29) and, but for `Cxnn`, the random byte (R35). -/

namespace Sys2Proof.Machine

/-! ### States that differ in the sound timer and the count of draws only -/

/-- The state with another `ST` and another count of random draws. -/
def State.withStDraws (s : State) (b : Byte) (n : Nat) : State := { s with st := b, draws := n }

section Operands

variable (s : State) (b : Byte) (n : Nat)

@[simp] theorem State.withStDraws_pc : (s.withStDraws b n).pc = s.pc := rfl
@[simp] theorem State.withStDraws_i : (s.withStDraws b n).i = s.i := rfl
@[simp] theorem State.withStDraws_reg (r : Reg) : (s.withStDraws b n).reg r = s.reg r := rfl
@[simp] theorem State.withStDraws_lowestPressed : (s.withStDraws b n).lowestPressed = s.lowestPressed := rfl
@[simp] theorem State.withStDraws_memRead (a k : Nat) : (s.withStDraws b n).memRead a k = s.memRead a k := rfl
@[simp] theorem State.withStDraws_regsUpTo (x : Reg) : (s.withStDraws b n).regsUpTo x = s.regsUpTo x := rfl

theorem State.withStDraws_skipIf (c : Bool) : (s.withStDraws b n).skipIf c = (s.skipIf c).withStDraws b n := by
  cases c <;> rfl

theorem State.withStDraws_push (a : Word) :
    (s.withStDraws b n).push a = (s.push a).map fun t => t.withStDraws b n := by
  rcases push_cases s a with ⟨h, _, he⟩ | ⟨h, he⟩ <;> rw [he]
  · exact dif_pos h
  · exact dif_neg h.not_lt

theorem State.withStDraws_pop : (s.withStDraws b n).pop = s.pop.map fun p => (p.1, p.2.withStDraws b n) := by
  rcases pop_cases s with ⟨_, _, h, he⟩ | ⟨h, he⟩ <;> rw [he]
  · exact dif_pos h
  · exact dif_neg h.not_gt

theorem State.withStDraws_memWrite (a : Nat) (bs : List Byte) :
    (s.withStDraws b n).memWrite a bs = (s.memWrite a bs).map fun t => t.withStDraws b n := by
  unfold State.memWrite
  split <;> rfl

end Operands

/-! ### Instructions -/

/-- Every instruction but `Cxnn` does the same whatever `ST` and the count of draws hold: it passes them on, but for the
`ST` that `Fx18` writes. -/
theorem exec_withStDraws {i : Instr} {s t : State} (b : Byte) (n : Nat) (hi : ∀ x nn, i ≠ .rnd x nn)
    (h : exec i s = .next t) :
    exec i (s.withStDraws b n) = .next (t.withStDraws (if mayWrite i s .st then t.st else b) n) := by
  cases i with
  | rnd x nn => exact absurd rfl (hi x nn)
  | ret =>
    simp only [exec, execRet, State.withStDraws_pop] at h ⊢
    cases hp : s.pop <;> rw [hp] at h <;> cases h <;> rfl
  | call nnn =>
    simp only [exec, execCall, State.withStDraws_pc, State.withStDraws_push] at h ⊢
    cases hp : s.push s.pc <;> rw [hp] at h <;> cases h <;> rfl
  | seImm | sneImm | seReg | sneReg => cases h; exact congrArg _ (State.withStDraws_skipIf s b n _)
  | skp x =>
    simp only [exec, execSkp, State.withStDraws_reg] at h ⊢
    cases hk : keyOperand (s.reg x) <;> rw [hk] at h <;> cases h
    · rfl
    · exact congrArg _ (State.withStDraws_skipIf s b n _)
  | sknp x =>
    simp only [exec, execSknp, State.withStDraws_reg] at h ⊢
    cases hk : keyOperand (s.reg x) <;> rw [hk] at h <;> cases h
    · rfl
    · exact congrArg _ (State.withStDraws_skipIf s b n _)
  | ldVxK x =>
    simp only [exec, execLdVxK, State.withStDraws_lowestPressed] at h ⊢
    cases hk : s.lowestPressed <;> rw [hk] at h <;> cases h <;> rfl
  | drw x y k =>
    simp only [exec, execDrw, State.withStDraws_i, State.withStDraws_memRead] at h ⊢
    cases hm : s.memRead s.i.toNat k <;> rw [hm] at h <;> cases h <;> rfl
  | ldVxMem x =>
    simp only [exec, execLdVxMem, State.withStDraws_i, State.withStDraws_memRead] at h ⊢
    cases hm : s.memRead s.i.toNat (blockLength x) <;> rw [hm] at h <;> cases h <;> rfl
  | ldB x =>
    simp only [exec, execLdB, State.withStDraws_i, State.withStDraws_reg, State.withStDraws_memWrite] at h ⊢
    cases hm : s.memWrite s.i.toNat (bcdDigits (s.reg x)) <;> rw [hm] at h <;> cases h <;> rfl
  | ldMemVx x =>
    simp only [exec, execLdMemVx, State.withStDraws_i, State.withStDraws_regsUpTo,
      State.withStDraws_memWrite] at h ⊢
    cases hm : s.memWrite s.i.toNat (s.regsUpTo x) <;> rw [hm] at h <;> cases h <;> rfl
  | _ => cases h; rfl

/-- Every instruction but `Cxnn` does the same whatever the count of draws. -/
theorem exec_withDraws {i : Instr} {s t : State} (n : Nat) (hi : ∀ x nn, i ≠ .rnd x nn) (h : exec i s = .next t) :
    exec i { s with draws := n } = .next { t with draws := n } := by
  have hst : (if mayWrite i s .st then t.st else s.st) = t.st := by
    cases hw : mayWrite i s .st with
    | true => rfl
    | false => exact (exec_keeps_piece h hw : t.st = s.st).symm
  have hrun := exec_withStDraws s.st n hi h
  rwa [hst] at hrun

/-- Every instruction but `Cxnn` draws nothing: with the count it started from it ends as it did. -/
theorem exec_keeps_draws {i : Instr} {s t : State} (hi : ∀ x nn, i ≠ .rnd x nn) (h : exec i s = .next t) :
    t.draws = s.draws := by
  have ht : t = { t with draws := s.draws } := Host.Outcome.next.inj (h.symm.trans (exec_withDraws s.draws hi h))
  rw [ht]

/-- Settles O17. -/
theorem onlyRndDrawsARandomByte : Obligations.OnlyRndDrawsARandomByte :=
  fun _ _ _ n hi h => ⟨exec_keeps_draws hi h, exec_withDraws n hi h⟩

/-- Settles O18: `Cxnn` does not look at `ST` either. -/
theorem noInstructionReadsTheSoundTimer : Obligations.NoInstructionReadsTheSoundTimer := by
  intro i s t b h
  by_cases hi : ∃ x nn, i = .rnd x nn
  · obtain ⟨x, nn, rfl⟩ := hi
    cases h
    exact ⟨_, rfl, rfl⟩
  · push Not at hi
    refine ⟨_, exec_withStDraws b s.draws hi h, ?_⟩
    rw [← exec_keeps_draws hi h]
    rfl

end Sys2Proof.Machine

end

section
/-! PROOFS. Memory at its edge and under the fetch (20_memory.md): an access past address 4095 faults whole (R51, R56),
and a stored instruction is the one fetched next (R61, R63). -/

namespace Sys2Proof.Machine

/-! ### Addressing faults (R201) -/

/-- The record of an addressing fault, read off the state that took it: the rest of the state is as before, and the
detail is the lowest invalid address. -/
theorem exists_next_of_addressFault {o : Host.Outcome State Fault Refusal} {s : State} {c : FaultCause} {ir a : Word}
    (h : o = .next (s.takeFault c ir (addrInfo a))) :
    ∃ t, o = .next t ∧ t = { s with faultCause := c, faultIr := ir, faultInfo := t.faultInfo } ∧
      t.faultInfo.toNat = max a.toNat 4096 :=
  ⟨_, h, rfl, addrInfo_toNat a⟩

/-- Settles O37: past the end each of the four instructions takes the addressing fault of its own word. -/
theorem rangePastTheEndFaults : Obligations.RangePastTheEndFaults := by
  refine fun x y s => ⟨fun h => ?ldB, fun h => ?ldMemVx, fun h => ?ldVxMem, fun n h0 _ h => ?drw⟩ <;>
    apply exists_next_of_addressFault
  case ldB => exact ((execLdB_cases x s).resolve_left fun ⟨hr, _⟩ => by omega).2
  case ldMemVx => exact ((execLdMemVx_cases x s).resolve_left fun ⟨hr, _⟩ => by omega).2
  case ldVxMem => exact ((execLdVxMem_cases x s).resolve_left fun ⟨hr, _⟩ => by omega).2
  case drw => exact ((execDrw_cases x y n s).resolve_left fun ⟨hr, _⟩ => by omega).2

/-- R56: a step of an unfaulted core whose fetch reaches past address 4095 takes the fetch fault. -/
theorem step_of_fetchPastEnd {s : State} (hf : s.faulted = false) (hpc : 4095 ≤ s.pc.toNat) :
    step s = .next s.fetchFault := by
  obtain ⟨_, hfetch⟩ := (fetch_cases s).resolve_left fun ⟨hle, _⟩ => by omega
  simp [step, hf, hfetch]

/-- Settles O6. -/
theorem fetchPastTheEndFaults : Obligations.FetchPastTheEndFaults :=
  fun _ hf hpc => exists_next_of_addressFault (step_of_fetchPastEnd hf hpc)

/-! ### A stored instruction is fetched (R61, R63) -/

/-- R56, R183: a step of an unfaulted core executes the instruction its two bytes at `PC` decode to. -/
theorem step_of_decode {s : State} {i : Instr} (hf : s.faulted = false) (hpc : s.pc.toNat ≤ 4094)
    (hd : decode (s.byteAt s.pc.toNat ++ s.byteAt (s.pc.toNat + 1)) = .ok i) : step s = exec i s.advance := by
  obtain ⟨_, hfetch⟩ := (fetch_cases s).resolve_right fun ⟨hge, _⟩ => by omega
  simp [step, hf, hfetch, hd]

/-- R154: within memory, `Fx55` stores its registers at `I` and does nothing else. -/
theorem exec_ldMemVx_of_range {x : Reg} {s : State} (hr : s.i.toNat + x.val < 4096) :
    exec (.ldMemVx x) s = .next (s.putBytes s.i.toNat (s.regsUpTo x)) :=
  ((execLdMemVx_cases x s).resolve_right fun ⟨hlt, _⟩ => by omega).2

/-- R154: after a block store, the byte `k` above `I` is `V[k]`. -/
theorem byteAt_blockStore {x k : Reg} {s : State} (hm : s.memWf = true) (hr : s.i.toNat + x.val < 4096)
    (hk : k.val ≤ x.val) : (s.putBytes s.i.toNat (s.regsUpTo x)).byteAt (s.i.toNat + k.val) = s.reg k := by
  have hl := length_regsUpTo s x
  rw [byteAt_putBytes_inside hm (by omega) (by omega), getElem_regsUpTo]
  rfl

/-- Settles O38: the two bytes at `PC` after the store are `V[0]` and `V[1]`. -/
theorem storedInstructionRunsNext : Obligations.StoredInstructionRunsNext := by
  intro x s j hf hm hx hr hpc hd
  rw [← byteAt_blockStore (k := 0) hm hr (Nat.zero_le _), ← byteAt_blockStore (k := 1) hm hr hx] at hd
  refine ⟨_, exec_ldMemVx_of_range hr, step_of_decode hf ?_ ?_⟩ <;> rw [State.putBytes_pc, hpc]
  · omega
  · exact hd

end Sys2Proof.Machine

end

section
/-! PROOFS. Decoder and encoder are inverse to each other, and the decoder is the opcode map (30_encoding.md R72 to
R82). -/

namespace Sys2Proof

/-! ### The register fields of each format -/

@[simp] theorem fieldX_wordXNN (f : BitVec 4) (x : Reg) (nn : Byte) : fieldX (wordXNN f x nn) = x := by
  rw [fieldX, d2_wordXNN, regOf_fieldOf]

@[simp] theorem fieldX_wordXYN (f : BitVec 4) (x y : Reg) (n : BitVec 4) : fieldX (wordXYN f x y n) = x := by
  rw [fieldX, d2_wordXYN, regOf_fieldOf]

@[simp] theorem fieldY_wordXYN (f : BitVec 4) (x y : Reg) (n : BitVec 4) : fieldY (wordXYN f x y n) = y := by
  rw [fieldY, d3_wordXYN, regOf_fieldOf]

/-- A row count of at most 15 fits its 4-bit field. -/
theorem fieldN_wordXYN (f : BitVec 4) (x y : Reg) {n : Nat} (hn : n < 16) :
    fieldN (wordXYN f x y (BitVec.ofNat 4 n)) = n := by
  rw [fieldN, d4_wordXYN, BitVec.toNat_ofNat, Nat.mod_eq_of_lt hn]

/-! ### Decoding an encoding -/

/-- R73, R75: the decoder reads off the family and the sub-opcode the encoder wrote, then the operands from the fields
of the format. -/
theorem decode_encode {i : Instr} (h : i.wellFormed = true) : decode (encode i) = .ok i := by
  cases i with
  | nop | cls | ret => rfl
  | jp | call | ldI | jpV0 | seImm | sneImm | ldImm | addImm | rnd | seReg | sneReg => simp [encode, decode]
  | ldReg | or | and | xor | add | sub | shr | subn | shl => simp [encode, decode, decode8]
  | drw x y n => simp [encode, decode, fieldN_wordXYN _ _ _ (of_decide_eq_true h)]
  | skp | sknp => simp [encode, decode, decodeE]
  | ldVxDt | ldVxK | ldDtVx | ldStVx | addI | ldF | ldB | ldMemVx | ldVxMem => simp [encode, decode, decodeF]

/-- Settles O1. -/
theorem decodeOfEncodeGivesBack : Obligations.DecodeOfEncodeGivesBack := fun _ h => decode_encode h

/-! ### Encoding a decoding -/

theorem encode_of_decode0 {ir : Word} {i : Instr} (h : decode0 ir = .ok i) : encode i = ir ∧ i.wellFormed = true := by
  unfold decode0 at h
  split_ifs at h with h0 hE0 hEE <;> cases h
  · exact ⟨h0.symm, rfl⟩
  · exact ⟨hE0.symm, rfl⟩
  · exact ⟨hEE.symm, rfl⟩

theorem encode_of_decode8 {ir : Word} {i : Instr} (hf : d1 ir = 0x8) (h : decode8 ir = .ok i) :
    encode i = ir ∧ i.wellFormed = true := by
  unfold decode8 at h
  split at h <;> cases h
  all_goals exact ⟨wordXYN_of_fields hf ‹_›, rfl⟩

theorem encode_of_decodeE {ir : Word} {i : Instr} (hf : d1 ir = 0xE) (h : decodeE ir = .ok i) :
    encode i = ir ∧ i.wellFormed = true := by
  unfold decodeE at h
  split at h <;> cases h
  all_goals exact ⟨wordXNN_of_fields hf ‹_›, rfl⟩

theorem encode_of_decodeF {ir : Word} {i : Instr} (hf : d1 ir = 0xF) (h : decodeF ir = .ok i) :
    encode i = ir ∧ i.wellFormed = true := by
  unfold decodeF at h
  split at h <;> cases h
  all_goals exact ⟨wordXNN_of_fields hf ‹_›, rfl⟩

theorem encode_of_decode {ir : Word} {i : Instr} (h : decode ir = .ok i) : encode i = ir ∧ i.wellFormed = true := by
  unfold decode at h
  split at h
  case h_1 => exact encode_of_decode0 h
  case h_2 hf | h_3 hf | h_11 hf | h_12 hf => cases h; exact ⟨wordNNN_of_fields hf, rfl⟩
  case h_4 hf | h_5 hf | h_7 hf | h_8 hf | h_13 hf => cases h; exact ⟨wordXNN_of_fields hf rfl, rfl⟩
  case h_6 hf | h_10 hf =>
    split_ifs at h with h4
    cases h
    exact ⟨wordXYN_of_fields hf h4, rfl⟩
  case h_9 hf => exact encode_of_decode8 hf h
  case h_14 hf =>
    cases h
    exact ⟨wordXYN_of_fields hf (by simp [fieldN]), decide_eq_true (d4 ir).isLt⟩
  case h_15 hf => exact encode_of_decodeE hf h
  case h_16 =>
    have hf : d1 ir = 0xF := by simp only [imp_false] at *; bv_omega
    exact encode_of_decodeF hf h

/-- Settles O2. -/
theorem encodeOfDecodeGivesBack : Obligations.EncodeOfDecodeGivesBack := fun _ _ h => encode_of_decode h

/-! ### The row of a word in the opcode map -/

/-- The number of the row of R75 the decoder finds for a word. -/
def rowOf (ir : Word) : Except Reject Nat := (decode ir).map rowNumber

/-- R76: the row the decoder finds depends on the family, on all of the word in family 0, on the last nibble in families
5, 8 and 9, and on the low byte in families E and F. -/
theorem rowOf_congr {a b : Word} (h1 : d1 a = d1 b) (h0 : d1 b = 0x0 → a = b)
    (h4 : d1 b ∈ [0x5, 0x8, 0x9] → d4 a = d4 b) (hNN : d1 b ∈ [0xE, 0xF] → fieldNN a = fieldNN b) :
    rowOf a = rowOf b := by
  unfold rowOf decode
  rw [h1]
  split
  case h_1 hf => rw [h0 hf]
  case h_6 hf | h_10 hf => rw [h4 (by simp [hf])]; split <;> rfl
  case h_9 hf => unfold decode8; rw [h4 (by simp [hf])]; split <;> rfl
  case h_15 hf => unfold decodeE; rw [hNN (by simp [hf])]; split <;> rfl
  case h_16 =>
    have hf : d1 b = 0xF := by simp only [imp_false] at *; bv_omega
    unfold decodeF; rw [hNN (by simp [hf])]; split <;> rfl
  all_goals rfl

/-- R75: every row's match decodes to that row, and its mask covers the fields the decoder looks at there. -/
theorem opcodeMap_masks : ∀ row ∈ opcodeMap, rowOf row.value = .ok row.number ∧ d1 row.mask = 0xF ∧
    (d1 row.value = 0x0 → row.mask = 0xFFFF) ∧ (d1 row.value ∈ [0x5, 0x8, 0x9] → d4 row.mask = 0xF) ∧
    (d1 row.value ∈ [0xE, 0xF] → fieldNN row.mask = 0xFF) := by decide

theorem d1_and_mask {ir m : Word} (hm : d1 m = 0xF) : d1 (ir &&& m) = d1 ir := by
  unfold d1 at hm ⊢
  rw [BitVec.extractLsb'_and, hm]
  exact Laws.and_F _

theorem d4_and_mask {ir m : Word} (hm : d4 m = 0xF) : d4 (ir &&& m) = d4 ir := by
  unfold d4 at hm ⊢
  rw [BitVec.extractLsb'_and, hm]
  exact Laws.and_F _

theorem fieldNN_and_mask {ir m : Word} (hm : fieldNN m = 0xFF) : fieldNN (ir &&& m) = fieldNN ir := by
  unfold fieldNN at hm ⊢
  rw [BitVec.extractLsb'_and, hm]
  exact Laws.and_FF _

/-- R75, R76: a word that matches a row of the map decodes to an instruction of that row. -/
theorem rowOf_of_rowMatches {row : OpcodeRow} {ir : Word} (hrow : row ∈ opcodeMap) (h : rowMatches row ir = true) :
    rowOf ir = .ok row.number := by
  obtain ⟨hvalue, hd1, h0, h4, hNN⟩ := opcodeMap_masks row hrow
  have hm : ir &&& row.mask = row.value := eq_of_beq h
  rw [← hvalue]
  apply rowOf_congr
  · rw [← hm, d1_and_mask hd1]
  · intro hf
    rw [← hm, h0 hf]
    exact BitVec.and_allOnes.symm
  · intro hf
    rw [← hm, d4_and_mask (h4 hf)]
  · intro hf
    rw [← hm, fieldNN_and_mask (hNN hf)]

/-- R75: whatever the instruction, its encoding matches its row. -/
theorem encode_matches_row : ∀ i : Instr, Laws.EncodeMatchesRow.Statement i
  | .nop => Laws.EncodeMatchesRow.nop
  | .cls => Laws.EncodeMatchesRow.cls
  | .ret => Laws.EncodeMatchesRow.ret
  | .jp nnn => Laws.EncodeMatchesRow.jp nnn
  | .call nnn => Laws.EncodeMatchesRow.call nnn
  | .seImm x nn => Laws.EncodeMatchesRow.seImm x nn
  | .sneImm x nn => Laws.EncodeMatchesRow.sneImm x nn
  | .seReg x y => Laws.EncodeMatchesRow.seReg x y
  | .ldImm x nn => Laws.EncodeMatchesRow.ldImm x nn
  | .addImm x nn => Laws.EncodeMatchesRow.addImm x nn
  | .ldReg x y => Laws.EncodeMatchesRow.ldReg x y
  | .or x y => Laws.EncodeMatchesRow.or x y
  | .and x y => Laws.EncodeMatchesRow.and x y
  | .xor x y => Laws.EncodeMatchesRow.xor x y
  | .add x y => Laws.EncodeMatchesRow.add x y
  | .sub x y => Laws.EncodeMatchesRow.sub x y
  | .shr x y => Laws.EncodeMatchesRow.shr x y
  | .subn x y => Laws.EncodeMatchesRow.subn x y
  | .shl x y => Laws.EncodeMatchesRow.shl x y
  | .sneReg x y => Laws.EncodeMatchesRow.sneReg x y
  | .ldI nnn => Laws.EncodeMatchesRow.ldI nnn
  | .jpV0 nnn => Laws.EncodeMatchesRow.jpV0 nnn
  | .rnd x nn => Laws.EncodeMatchesRow.rnd x nn
  | .drw x y n => Laws.EncodeMatchesRow.drw x y n
  | .skp x => Laws.EncodeMatchesRow.skp x
  | .sknp x => Laws.EncodeMatchesRow.sknp x
  | .ldVxDt x => Laws.EncodeMatchesRow.ldVxDt x
  | .ldVxK x => Laws.EncodeMatchesRow.ldVxK x
  | .ldDtVx x => Laws.EncodeMatchesRow.ldDtVx x
  | .ldStVx x => Laws.EncodeMatchesRow.ldStVx x
  | .addI x => Laws.EncodeMatchesRow.addI x
  | .ldF x => Laws.EncodeMatchesRow.ldF x
  | .ldB x => Laws.EncodeMatchesRow.ldB x
  | .ldMemVx x => Laws.EncodeMatchesRow.ldMemVx x
  | .ldVxMem x => Laws.EncodeMatchesRow.ldVxMem x

/-- Settles O3: a decoded word is an encoding, which matches its instruction's row; and a word that matches a row
decodes to that row, so it matches no other one and is not rejected. -/
theorem decodeFollowsOpcodeMap : Obligations.DecodeFollowsOpcodeMap := by
  intro ir
  split
  case h_1 i hd =>
    refine ⟨(encode_of_decode hd).1 ▸ encode_matches_row i, fun row hrow hm => ?_⟩
    have hr := rowOf_of_rowMatches hrow hm
    rw [rowOf, hd] at hr
    exact (Except.ok.inj hr).symm
  case h_2 hd =>
    refine fun row hrow => Bool.eq_false_iff.2 fun hm => ?_
    have hr := rowOf_of_rowMatches hrow hm
    rw [rowOf, hd] at hr
    cases hr

/-- Settles O4: each word is evaluated. -/
theorem decodeOfWrittenWords : Obligations.DecodeOfWrittenWords := by
  unfold Obligations.DecodeOfWrittenWords
  decide

end Sys2Proof

end

section
/-! PROOFS. What a step does with an illegal word (30_encoding.md R77, 60_exceptions.md R203). -/

namespace Sys2Proof.Machine

/-- R77, R183: a step of an unfaulted core whose two bytes at `PC` are no instruction takes the decode fault. -/
theorem step_of_illegal {s : State} {r : Reject} (hf : s.faulted = false) (hpc : s.pc.toNat ≤ 4094)
    (hd : decode (s.byteAt s.pc.toNat ++ s.byteAt (s.pc.toNat + 1)) = .error r) :
    step s = .next (s.decodeFault (s.byteAt s.pc.toNat ++ s.byteAt (s.pc.toNat + 1))) := by
  obtain ⟨_, hfetch⟩ := (fetch_cases s).resolve_right fun ⟨hge, _⟩ => by omega
  simp [step, hf, hfetch, hd]

/-- Settles O7. -/
theorem illegalWordFaults : Obligations.IllegalWordFaults := fun _ _ hf hpc hd => step_of_illegal hf hpc hd

end Sys2Proof.Machine

end

section
/-! PROOFS. The shifts (43_alu.md R137, R139), by the rules for a result and its flag (R130). -/

namespace Sys2Proof.Machine

/-! ### A result and its flag (R130) -/

theorem setRegFlag_VF (s : State) (x : Reg) (b : Byte) (f : Bool) : (s.setRegFlag x b f).reg VF = flagByte f := by
  rw [State.setRegFlag_reg, if_pos rfl]

theorem setRegFlag_result (s : State) {x : Reg} (hx : x ≠ VF) (b : Byte) (f : Bool) :
    (s.setRegFlag x b f).reg x = b := by
  rw [State.setRegFlag_reg, if_neg hx, if_pos rfl]

theorem setRegFlag_other (s : State) {x r : Reg} (hx : r ≠ x) (hf : r ≠ VF) (b : Byte) (f : Bool) :
    (s.setRegFlag x b f).reg r = s.reg r := by
  rw [State.setRegFlag_reg, if_neg hf, if_neg hx]

/-! ### The bit shifted out -/

theorem flagByte_toNat (f : Bool) : (flagByte f).toNat = f.toNat := by cases f <;> rfl

theorem shiftedOutRight_toNat (a : Byte) : (shiftedOutRight a).toNat = a.toNat % 2 := by
  rw [shiftedOutRight, BitVec.getLsbD, Nat.toNat_testBit]
  omega

theorem shiftedOutLeft_toNat (a : Byte) : (shiftedOutLeft a).toNat = a.toNat / 128 := by
  have := a.isLt
  rw [shiftedOutLeft, BitVec.getLsbD, Nat.toNat_testBit]
  omega

/-- Settles O31. -/
theorem shiftsByOne : Obligations.ShiftsByOne := by
  refine fun x y s => ⟨⟨_, rfl, rfl, ?vfR, fun hx => ?resR, fun r hx hf => setRegFlag_other s hx hf _ _⟩,
    ⟨_, rfl, rfl, ?vfL, fun hx => ?resL, fun r hx hf => setRegFlag_other s hx hf _ _⟩⟩
  case vfR => rw [setRegFlag_VF, flagByte_toNat, shiftedOutRight_toNat]
  case resR => rw [setRegFlag_result s hx, BitVec.toNat_ushiftRight, Nat.shiftRight_one]
  case vfL => rw [setRegFlag_VF, flagByte_toNat, shiftedOutLeft_toNat]
  case resL => rw [setRegFlag_result s hx, BitVec.toNat_shiftLeft, Nat.shiftLeft_eq, Nat.pow_one]

end Sys2Proof.Machine

end

section
/-! PROOFS. Control transfer (40_control.md): the no-op and the jumps, and the call and the return by one rule for each
side of their stack check. -/

namespace Sys2Proof.Machine

/-! ### The no-op, the illegal words of family 0 and the jumps (R77, R100, R102, R104) -/

/-- Words of one family differ where their `nnn` do (R72). -/
theorem wordNNN_ne {f : BitVec 4} {a b : Imm12} (h : a ≠ b) : wordNNN f a ≠ wordNNN f b :=
  fun he => h (by simpa using congrArg fieldNNN he)

/-- R100: no word but 0x0000 decodes to the no-op, since a decoded word is the encoding of its instruction. -/
theorem decode_eq_nop_iff (ir : Word) : decode ir = .ok .nop ↔ ir = 0x0000 :=
  ⟨fun h => (encode_of_decode h).1.symm, fun h => h ▸ rfl⟩

/-- R77: a word of family 0 that is none of the three of R76 is illegal. -/
theorem decode_family0_illegal {nnn : Imm12} (h0 : nnn ≠ 0x000) (hE0 : nnn ≠ 0x0E0) (hEE : nnn ≠ 0x0EE) :
    decode (wordNNN 0x0 nnn) = .error .illegal0 := by
  calc decode (wordNNN 0x0 nnn) = decode0 (wordNNN 0x0 nnn) := by simp [decode]
    _ = .error .illegal0 :=
      (if_neg (wordNNN_ne h0)).trans <| (if_neg (wordNNN_ne hE0)).trans <| if_neg (wordNNN_ne hEE)

theorem immAddr_toNat (nnn : Imm12) : (immAddr nnn).toNat = nnn.toNat :=
  BitVec.toNat_setWidth_of_le (by decide)

/-- The sum of a byte and 12 bits does not wrap at 16 bits. -/
theorem indexedTarget_toNat (v : Byte) (nnn : Imm12) : (indexedTarget v nnn).toNat = v.toNat + nnn.toNat := by
  have := nnn.isLt
  have := v.isLt
  simp only [indexedTarget, zext16, BitVec.toNat_add, BitVec.toNat_setWidth]
  omega

/-- Settles O19. -/
theorem nopAndJump : Obligations.NopAndJump :=
  ⟨decode_eq_nop_iff, fun _ => rfl, fun _ => decode_family0_illegal, fun nnn => decode_encode (i := .jp nnn) rfl,
    fun nnn _ => ⟨_, rfl, rfl, immAddr_toNat nnn⟩⟩

/-- Settles O20. -/
theorem jumpIndexedByV0 : Obligations.JumpIndexedByV0 :=
  fun nnn s => ⟨decode_encode (i := .jpV0 nnn) rfl, _, rfl, rfl, indexedTarget_toNat (s.reg 0) nnn⟩

/-! ### Call and return (R101, R103) -/

/-- R103: a call with room on the stack. -/
theorem exec_call_of_room {s : State} (nnn : Imm12) (h : s.sp.val < 16) :
    exec (.call nnn) s = .next { s with
      pc := immAddr nnn, stack := s.stack.set s.sp.val s.pc h, sp := ⟨s.sp.val + 1, Nat.succ_lt_succ h⟩ } := by
  obtain ⟨_, _, he⟩ := (execCall_cases nnn s).resolve_right fun ⟨hfull, _⟩ => by omega
  exact he

/-- R103, R202: a call on a full stack. -/
theorem exec_call_of_full {s : State} (nnn : Imm12) (h : s.sp.val = 16) :
    exec (.call nnn) s = .next (s.takeFault .stackOverflow (encode (.call nnn)) 0) :=
  ((execCall_cases nnn s).resolve_left fun ⟨hroom, _⟩ => by omega).2

/-- R101: a return with `k + 1` addresses on the stack takes the one in slot `k`. -/
theorem exec_ret_of_sp {s : State} {k : Fin 16} (h : s.sp = k.succ) :
    exec .ret s = .next { s with pc := s.stack[k], sp := k.castSucc } := by
  have hk : s.sp.val = k.val + 1 := congrArg Fin.val h
  obtain ⟨_, _, _, he⟩ := (execRet_cases s).resolve_right fun ⟨hempty, _⟩ => by omega
  simp only [hk, Nat.add_sub_cancel] at he
  exact he

/-- R101, R202: a return on an empty stack. -/
theorem exec_ret_of_empty {s : State} (h : s.sp.val = 0) :
    exec .ret s = .next (s.takeFault .stackUnderflow (encode .ret) 0) :=
  ((execRet_cases s).resolve_left fun ⟨_, _, hpos, _⟩ => by omega).2

/-- Settles O21. -/
theorem callPushesTheReturnAddress : Obligations.CallPushesTheReturnAddress := by
  refine fun nnn s h => ⟨_, exec_call_of_room nnn h, rfl, immAddr_toNat nnn, rfl, fun k => ?_⟩
  simp only [Fin.getElem_fin, Vector.getElem_set, @eq_comm _ s.sp.val]

/-- Settles O22. -/
theorem returnPopsTheReturnAddress : Obligations.ReturnPopsTheReturnAddress := by
  intro s h
  obtain ⟨k, hk⟩ := Fin.exists_succ_eq.2 (Fin.pos_iff_ne_zero.1 h)
  refine ⟨_, exec_ret_of_sp hk.symm, rfl, congrArg Fin.val hk, fun j hj => ?_⟩
  rw [Fin.ext hj]

/-- Settles O23. -/
theorem stackFaults : Obligations.StackFaults :=
  ⟨fun nnn _ => exec_call_of_full nnn, fun _ => exec_ret_of_empty⟩

/-- Settles O24: the return finds in slot `STACK[SP]` the address the call has put there. -/
theorem callThenReturnComesBack : Obligations.CallThenReturnComesBack := by
  refine fun nnn s h => ⟨_, exec_call_of_room nnn h, fun p => ⟨_, exec_ret_of_sp (k := ⟨s.sp.val, h⟩) rfl, ?_, ?_⟩⟩
  · simp only [Fin.getElem_fin, Vector.getElem_set_self, Fin.castSucc_mk, Fin.eta]
  · exact fun k hk => Vector.getElem_set_ne h k.isLt (Ne.symm hk)

end Sys2Proof.Machine

end

section
/-! PROOFS. The skips on registers (41_skip.md R111 to R114), by one rule for a skip on equality and one for a skip on
difference. -/

namespace Sys2Proof.Machine

/-! ### The illegal words of families 5 and 9 (R77) -/

theorem decode_family5_illegal (x y : Reg) {k : BitVec 4} (hk : k ≠ 0) :
    decode (wordXYN 0x5 x y k) = .error .illegal5 := by
  simpa [decode] using hk

theorem decode_family9_illegal (x y : Reg) {k : BitVec 4} (hk : k ≠ 0) :
    decode (wordXYN 0x9 x y k) = .error .illegal9 := by
  simpa [decode] using hk

/-! ### The condition of a skip (R110) -/

theorem skipIf_beq (s : State) (a b : Byte) :
    s.skipIf (a == b) = if a = b then { s with pc := s.pc + 2 } else s := by
  by_cases h : a = b
  · rw [if_pos h, beq_iff_eq.2 h]; rfl
  · rw [if_neg h, beq_eq_false_iff_ne.2 h]; rfl

theorem skipIf_bne (s : State) (a b : Byte) :
    s.skipIf (a != b) = if a = b then s else { s with pc := s.pc + 2 } := by
  by_cases h : a = b
  · rw [if_pos h, bne_eq_false_iff_eq.2 h]; rfl
  · rw [if_neg h, bne_iff_ne.2 h]; rfl

/-- Settles O25: the legal words are the encodings of the four skips, and each skip's meaning is a skip on whether two
bytes are equal. -/
theorem skipsOnRegisters : Obligations.SkipsOnRegisters :=
  ⟨fun x y nn => ⟨decode_encode (i := .seImm x nn) rfl, decode_encode (i := .sneImm x nn) rfl,
      decode_encode (i := .seReg x y) rfl, decode_encode (i := .sneReg x y) rfl⟩,
    fun x y _ hk => ⟨decode_family5_illegal x y hk, decode_family9_illegal x y hk⟩,
    fun x y nn s => ⟨congrArg _ (skipIf_beq s (s.reg x) nn), congrArg _ (skipIf_bne s (s.reg x) nn),
      congrArg _ (skipIf_beq s (s.reg x) (s.reg y)), congrArg _ (skipIf_bne s (s.reg x) (s.reg y))⟩⟩

end Sys2Proof.Machine

end

section
/-! PROOFS. The loads of a constant, the constant add, the register move and the random byte (42_const_random.md R120 to
R122, 43_alu.md R131), by the two rules for a register write. -/

namespace Sys2Proof.Machine

/-! ### A register write (R21) -/

theorem setReg_result (s : State) (x : Reg) (b : Byte) : (s.setReg x b).reg x = b := by
  rw [State.setReg_reg, if_pos rfl]

theorem setReg_other (s : State) {x r : Reg} (hx : r ≠ x) (b : Byte) : (s.setReg x b).reg r = s.reg r := by
  rw [State.setReg_reg, if_neg hx]

/-! ### Constants and the move (R120, R121, R131) -/

/-- Settles O26: the words are the encodings of the three instructions, and each of them writes one register. -/
theorem loadAndAddImmediateAndMove : Obligations.LoadAndAddImmediateAndMove := by
  refine ⟨fun x y nn => ⟨decode_encode (i := .ldImm x nn) rfl, decode_encode (i := .addImm x nn) rfl,
      decode_encode (i := .ldReg x y) rfl⟩,
    fun x nn s => ⟨_, rfl, rfl, setReg_result s x nn, fun r hr => setReg_other s hr nn⟩,
    fun x nn s => ⟨_, rfl, rfl, ?sum, fun r hr => setReg_other s hr _⟩,
    fun x y s => ⟨_, rfl, rfl, setReg_result s x _, fun r hr => setReg_other s hr _⟩⟩
  case sum => rw [setReg_result, BitVec.toNat_add]

/-! ### The random byte (R122) -/

/-- Settles O27: the byte drawn is masked by `nn` bit by bit. -/
theorem randomByteUnderMask : Obligations.RandomByteUnderMask := by
  intro x nn s
  have hbit (k : Nat) : ((s.draw.2.setReg x (s.draw.1 &&& nn)).reg x).getLsbD k =
      ((Config.rnd s.draws).getLsbD k && nn.getLsbD k) := by
    rw [setReg_result, BitVec.getLsbD_and, State.draw_byte]
  refine ⟨_, rfl, rfl, fun r hr => setReg_other s.draw.2 hr _, hbit, fun k hk => ?_⟩
  rw [hbit, hk, Bool.and_false]

end Sys2Proof.Machine

end

section
/-! PROOFS. The sum, the differences and the logic operations of two registers (43_alu.md R132 to R136, R138), by the
rules for a result and its flag (R130) and those for a register write (R21). -/

namespace Sys2Proof.Machine

/-! ### The carry and the borrow (R22) -/

/-- The byte of a flag that a test sets. -/
theorem flagByte_decide (p : Prop) [Decidable p] : flagByte (decide p) = if p then 1 else 0 := by
  simp only [flagByte, decide_eq_true_iff]

/-- R135: the flag of the sum. -/
theorem flagByte_carryFlag (a b : Byte) : flagByte (carryFlag a b) = if a.toNat + b.toNat > 255 then 1 else 0 :=
  flagByte_decide _

/-- R136, R138: the flag of the difference, 1 at equality (D7). -/
theorem flagByte_notBorrowFlag (a b : Byte) : flagByte (notBorrowFlag a b) = if a.toNat ≥ b.toNat then 1 else 0 :=
  flagByte_decide _

/-- Settles O29. -/
theorem addWithCarry : Obligations.AddWithCarry := by
  refine fun x y s => ⟨_, rfl, rfl, ?vf, fun hx => ?sum, fun r hx hf => setRegFlag_other s hx hf _ _⟩
  case vf => rw [setRegFlag_VF, flagByte_carryFlag]
  case sum => rw [setRegFlag_result s hx, BitVec.toNat_add]

/-! ### The difference modulo 256 -/

/-- A difference of bytes is that of the integers modulo 256, which is not negative. -/
theorem byte_sub_toNat (a b : Byte) : ((a - b).toNat : Int) = (a.toNat - b.toNat : Int) % 256 := by
  have := b.isLt
  rw [BitVec.toNat_sub]
  omega

/-- R136, R138: what a difference of two bytes and its flag leave, whichever bytes they are. -/
theorem setRegFlag_difference (s : State) (x : Reg) (a b : Byte) {t : State}
    (ht : t = s.setRegFlag x (a - b) (notBorrowFlag a b)) :
    t = { s with v := t.v } ∧ t.reg VF = (if a.toNat ≥ b.toNat then 1 else 0) ∧
      (x ≠ VF → ((t.reg x).toNat : Int) = (a.toNat - b.toNat : Int) % 256) ∧
      ∀ r, r ≠ x → r ≠ VF → t.reg r = s.reg r := by
  subst ht
  refine ⟨State.setRegFlag_frame .., ?vf, fun hx => ?difference, fun r hx hf => setRegFlag_other s hx hf _ _⟩
  case vf => rw [setRegFlag_VF, flagByte_notBorrowFlag]
  case difference => rw [setRegFlag_result s hx, byte_sub_toNat]

/-- Settles O30: the two subtractions are one rule with the operands exchanged. -/
theorem subtractWithBorrow : Obligations.SubtractWithBorrow :=
  fun x y s => ⟨⟨_, rfl, setRegFlag_difference s x (s.reg x) (s.reg y) rfl⟩,
    ⟨_, rfl, setRegFlag_difference s x (s.reg y) (s.reg x) rfl⟩⟩

/-! ### The logic operations (R132 to R134) -/

/-- Settles O28: each operation is one register write, so `VF` changes only as `V[x]` (D23). -/
theorem logicOperations : Obligations.LogicOperations := by
  refine fun x y s => ⟨⟨_, rfl, rfl, fun r hr => setReg_other s hr _, fun k => ?or⟩,
    ⟨_, rfl, rfl, fun r hr => setReg_other s hr _, fun k => ?and⟩,
    ⟨_, rfl, rfl, fun r hr => setReg_other s hr _, fun k => ?xor⟩⟩
  case or => rw [setReg_result, BitVec.getLsbD_or]
  case and => rw [setReg_result, BitVec.getLsbD_and]
  case xor => rw [setReg_result, BitVec.getLsbD_xor]

end Sys2Proof.Machine

end

section
/-! PROOFS. The index register and the memory-indexed instructions (44_index_memory.md R150 to R156), and the moves
between `V[x]` and the timers (46_keys_timers.md R173 to R175). -/

namespace Sys2Proof.Machine

/-! ### The values that go to `I` (R151, R152) -/

theorem indexPlus_toNat (i : Word) (v : Byte) : (indexPlus i v).toNat = (i.toNat + v.toNat) % 65536 := by
  rw [indexPlus, BitVec.toNat_add, zext16, BitVec.toNat_setWidth_of_le (by decide)]

/-- Five times a byte does not wrap at 16 bits. -/
theorem glyphAddr_toNat (v : Byte) : (glyphAddr v).toNat = v.toNat * 5 := by
  have hlt : v.toNat * 5 < 2 ^ 16 := by have := v.isLt; omega
  rw [glyphAddr, BitVec.toNat_mul, zext16, BitVec.toNat_setWidth_of_le (by decide)]
  exact Nat.mod_eq_of_lt hlt

/-- Settles O32: the words are the encodings of the four instructions, and each of them writes one piece of state. -/
theorem indexAndTimerMoves : Obligations.IndexAndTimerMoves :=
  ⟨fun x nnn => ⟨decode_encode (i := .ldI nnn) rfl, decode_encode (i := .ldVxDt x) rfl,
      decode_encode (i := .ldDtVx x) rfl, decode_encode (i := .ldStVx x) rfl⟩,
    fun x nnn s => ⟨⟨_, rfl, rfl, immAddr_toNat nnn⟩,
      ⟨_, rfl, rfl, setReg_result s x s.dt, fun _ hr => setReg_other s hr s.dt⟩, rfl, rfl⟩⟩

/-- Settles O33. -/
theorem indexArithmetic : Obligations.IndexArithmetic :=
  fun x s => ⟨⟨_, rfl, rfl, indexPlus_toNat s.i (s.reg x)⟩, ⟨_, rfl, rfl, glyphAddr_toNat (s.reg x)⟩⟩

/-! ### The decimal digits (R153) -/

/-- The bytes `Fx33` stores are the decimal digits of `v`: they make it up, and the last two are below ten. -/
theorem bcdDigits_decimal (v : Byte) :
    ∃ h t o : Byte, bcdDigits v = [h, t, o] ∧ h.toNat * 100 + t.toNat * 10 + o.toNat = v.toNat ∧
      t.toNat ≤ 9 ∧ o.toNat ≤ 9 := by
  have := v.isLt
  refine ⟨_, _, _, rfl, ?_⟩
  simp only [BitVec.toNat_ofNat]
  omega

/-- R153: within memory, `Fx33` stores its digits at `I` and does nothing else. -/
theorem exec_ldB_of_range {x : Reg} {s : State} (hr : s.i.toNat + 2 < 4096) :
    exec (.ldB x) s = .next (s.putBytes s.i.toNat (bcdDigits (s.reg x))) :=
  ((execLdB_cases x s).resolve_right fun ⟨hlt, _⟩ => by omega).2

/-- Settles O34: each of the three digits is read back from its own address. -/
theorem bcdStoresTheDigits : Obligations.BcdStoresTheDigits := by
  intro x s hm hr
  obtain ⟨h, t, o, hdigits, hvalue, ht, ho⟩ := bcdDigits_decimal (s.reg x)
  have hexec := exec_ldB_of_range (x := x) hr
  rw [hdigits] at hexec
  have hbyte (k : Nat) (hk : k < 3) : (s.putBytes s.i.toNat [h, t, o]).byteAt (s.i.toNat + k) = [h, t, o][k] :=
    byteAt_putBytes_inside hm hr hk
  have hundreds : (s.putBytes s.i.toNat [h, t, o]).byteAt s.i.toNat = h := hbyte 0 (by decide)
  refine ⟨_, hexec, rfl, ?_⟩
  rw [hundreds, hbyte 1 (by decide), hbyte 2 (by decide)]
  exact ⟨hvalue, ht, ho, fun a ha => byteAt_putBytes_of_outside ha⟩

/-! ### Blocks of registers (R154, R155) -/

/-- Settles O35. -/
theorem blockStore : Obligations.BlockStore := by
  refine fun x s hm hr => ⟨_, exec_ldMemVx_of_range hr, rfl, fun k hk => byteAt_blockStore hm hr hk,
    fun a ha => byteAt_putBytes_of_outside ?_⟩
  rw [length_regsUpTo]
  omega

/-- R155: within memory, `Fx65` fills its registers from the bytes at `I` and does nothing else. -/
theorem exec_ldVxMem_of_range {x : Reg} {s : State} (hr : s.i.toNat + x.val < 4096) :
    exec (.ldVxMem x) s =
      .next { s with v := fillRegs s.v 0 (readBytes s.glyph s.mem s.i.toNat (x.val + 1)) } :=
  ((execLdVxMem_cases x s).resolve_right fun ⟨hlt, _⟩ => by omega).2

/-- R155: register `k` after `n` registers are filled from the bytes at `a`. -/
theorem getElem_blockLoad (s : State) (a n : Nat) (k : Reg) :
    (fillRegs s.v 0 (readBytes s.glyph s.mem a n))[k] = if k.val < n then s.byteAt (a + k.val) else s.reg k := by
  rw [Fin.getElem_fin, getElem_fillRegs]
  by_cases hk : k.val < n
  · rw [dif_pos (by simpa using hk), if_pos hk, getElem_readBytes_state]; rfl
  · rw [dif_neg (by simpa using hk), if_neg hk]; rfl

/-- Settles O36. -/
theorem blockLoad : Obligations.BlockLoad := by
  refine fun x s hr => ⟨_, exec_ldVxMem_of_range hr, rfl, fun k hk => ?loaded, fun k hk => ?kept⟩
  case loaded => exact (getElem_blockLoad s _ _ k).trans (if_pos (Nat.lt_succ_of_le hk))
  case kept => exact (getElem_blockLoad s _ _ k).trans (if_neg (Nat.not_lt.2 hk))

end Sys2Proof.Machine

end

section
/-! PROOFS. Clearing the screen and drawing a sprite (45_display.md R160 to R163): the pixels the blitter's loops hit
are the cells of the sprite mask, which the statements number as R31 does. -/

namespace Sys2Proof.Machine

/-- Settles O39: the word is the encoding of `CLS`, which writes the framebuffer alone. -/
theorem clearScreen : Obligations.ClearScreen :=
  ⟨decode_encode (i := .cls) rfl, fun _ => ⟨_, rfl, rfl, fun _ => pixel_clearFb _ _⟩⟩

/-! ### Cells and pixels (R31) -/

/-- The column of the cell `FB[k]`. -/
def cellColumn (k : Fin 2048) : Fin 64 := ⟨k.val % 64, Nat.mod_lt _ (by decide)⟩

/-- The row of the cell `FB[k]`. -/
def cellRow (k : Fin 2048) : Fin 32 := ⟨k.val / 64, Nat.div_lt_of_lt_mul k.isLt⟩

theorem cell_eq_pixel (f : Framebuffer) (k : Fin 2048) : cell f k = pixel f (cellColumn k) (cellRow k) := rfl

/-- Every pixel is a cell. -/
theorem exists_cell_of_pixel (px : Fin 64) (py : Fin 32) : ∃ k, cellColumn k = px ∧ cellRow k = py := by
  refine ⟨⟨px.val + 64 * py.val, by omega⟩, Fin.ext ?_, Fin.ext ?_⟩
  · simp only [cellColumn]; omega
  · simp only [cellRow]; omega

/-- Two framebuffers with equal cells are equal. -/
theorem framebuffer_ext_cell {f g : Framebuffer} (h : ∀ k, cell f k = cell g k) : f = g := by
  refine framebuffer_ext fun px py => ?_
  obtain ⟨k, rfl, rfl⟩ := exists_cell_of_pixel px py
  exact h k

/-- Which cell stands at two wrapped coordinates. -/
theorem cell_at_wrapped_iff (k : Fin 2048) (a b : Nat) :
    cellColumn k = Fin.ofNat 64 a ∧ cellRow k = Fin.ofNat 32 b ↔ k.val = a % 64 + 64 * (b % 32) := by
  simp only [Fin.ext_iff, cellColumn, cellRow, Fin.ofNat]
  omega

/-! ### The sprite mask (R162) -/

/-- The sprite rows at `I`. -/
def State.spriteRows (s : State) (n : Nat) : List Byte := readBytes s.glyph s.mem s.i.toNat n

theorem State.length_spriteRows (s : State) (n : Nat) : (s.spriteRows n).length = n := length_readBytes ..

theorem State.getElem_spriteRows (s : State) (n r : Nat) (h : r < (s.spriteRows n).length) :
    (s.spriteRows n)[r] = s.byteAt (s.i.toNat + r) := getElem_readBytes_state s _ n r h

/-- The mask is what the loops of R161 hit. -/
theorem inSprite_iff_spriteHit (s : State) (x y : Reg) (n : Nat) (k : Fin 2048) :
    inSprite s x y n k ↔
      spriteHit (s.reg x).toNat (s.reg y).toNat (s.spriteRows n) (cellColumn k) (cellRow k) := by
  constructor
  · rintro ⟨r, c, hr, hc, hbit, hk⟩
    obtain ⟨hcol, hrow⟩ := (cell_at_wrapped_iff k _ _).2 hk
    have hr' : r < (s.spriteRows n).length := by rwa [s.length_spriteRows]
    refine ⟨r, hr', hrow, c, Nat.lt_succ_of_le hc, ?_, hcol⟩
    rwa [s.getElem_spriteRows]
  · rintro ⟨r, hr, hrow, c, hc, hbit, hcol⟩
    rw [s.getElem_spriteRows] at hbit
    rw [s.length_spriteRows] at hr
    exact ⟨r, c, hr, Nat.le_of_lt_succ hc, hbit, (cell_at_wrapped_iff k _ _).1 ⟨hcol, hrow⟩⟩

/-! ### What one draw does (R161) -/

/-- The framebuffer and the collision `d` are what R162 says of the sprite drawn in `s`. -/
structure DrawsSprite (s : State) (x y : Reg) (n : Nat) (d : Framebuffer × Bool) : Prop where
  flips : ∀ k, inSprite s x y n k → cell d.1 k = !cell s.fb k
  keeps : ∀ k, ¬ inSprite s x y n k → cell d.1 k = cell s.fb k
  collides_iff : d.2 = true ↔ ∃ k, inSprite s x y n k ∧ cell s.fb k = true

/-- The loops of R161 draw the sprite mask. -/
theorem drawRows_drawsSprite (s : State) (x y : Reg) {n : Nat} (hn : n < 16) :
    DrawsSprite s x y n (drawRows (s.reg x).toNat (s.reg y).toNat (s.spriteRows n) (s.fb, false)) := by
  have hl : (s.spriteRows n).length ≤ 32 := by rw [s.length_spriteRows]; omega
  obtain ⟨hflip, hkeep, hcol⟩ := drawRows_spec (s.reg x).toNat (s.reg y).toNat (s.spriteRows n) hl (s.fb, false)
  refine ⟨fun k hk => hflip _ _ ((inSprite_iff_spriteHit ..).1 hk),
    fun k hk => hkeep _ _ (mt (inSprite_iff_spriteHit ..).2 hk), hcol.trans ⟨?_, ?_⟩⟩
  · rintro (h | ⟨px, py, hhit, hset⟩)
    · exact absurd h Bool.false_ne_true
    · obtain ⟨k, rfl, rfl⟩ := exists_cell_of_pixel px py
      exact ⟨k, (inSprite_iff_spriteHit ..).2 hhit, hset⟩
  · rintro ⟨k, hk, hset⟩
    exact Or.inr ⟨_, _, (inSprite_iff_spriteHit ..).1 hk, hset⟩

/-- R161: with its bytes in memory, `Dxyn` draws the sprite, writes its collision to `VF` and does nothing else. -/
theorem exec_drw_of_range {x y : Reg} {n : Nat} {s : State} (hn : n < 16) (hr : n = 0 ∨ s.i.toNat + n - 1 < 4096) :
    ∃ d, DrawsSprite s x y n d ∧ exec (.drw x y n) s = .next (({ s with fb := d.1 } : State).setFlag d.2) := by
  obtain ⟨_, d, rfl, he⟩ := (execDrw_cases x y n s).resolve_right fun ⟨⟨hpos, hlt⟩, _⟩ => by omega
  exact ⟨_, drawRows_drawsSprite s x y hn, he⟩

/-- The collision stands in `VF`. -/
theorem setFlag_VF_eq_one_iff (s : State) (f : Bool) : (s.setFlag f).reg VF = 1 ↔ f = true := by
  rw [State.setFlag_reg, if_pos rfl]
  cases f <;> decide

theorem setFlag_VF_eq_zero_iff (s : State) (f : Bool) : (s.setFlag f).reg VF = 0 ↔ ¬ f = true := by
  rw [State.setFlag_reg, if_pos rfl]
  cases f <;> decide

/-- Settles O40: the flag written is the collision of the draw, and a draw never writes `I` (D14). -/
theorem drawFlipsTheSpriteMask : Obligations.DrawFlipsTheSpriteMask := by
  intro x y n s hn hr
  obtain ⟨d, hd, hexec⟩ := exec_drw_of_range hn hr
  exact ⟨_, hexec, rfl, hd.flips, hd.keeps, fun h => (setFlag_VF_eq_one_iff ..).2 (hd.collides_iff.2 h),
    fun h => (setFlag_VF_eq_zero_iff ..).2 (mt hd.collides_iff.1 h), fun _ hf => setReg_other _ hf _⟩

/-! ### Drawing twice (R163) -/

section
variable {s : State} {x y : Reg} {n : Nat} {d e : Framebuffer × Bool}

/-- The mask does not depend on the framebuffer, so a second draw flips back what the first has flipped. -/
theorem DrawsSprite.restores (hd : DrawsSprite s x y n d) (he : DrawsSprite { s with fb := d.1 } x y n e) :
    e.1 = s.fb := by
  refine framebuffer_ext_cell fun k => ?_
  by_cases hk : inSprite s x y n k
  · rw [he.flips k hk, hd.flips k hk, Bool.not_not]
  · rw [he.keeps k hk, hd.keeps k hk]

/-- On a clear screen there is nothing to collide with. -/
theorem DrawsSprite.not_collides_of_clear (hd : DrawsSprite s x y n d) (hc : ∀ k, cell s.fb k = false) :
    ¬ d.2 = true := by
  rw [hd.collides_iff]
  rintro ⟨k, _, hset⟩
  exact Bool.false_ne_true ((hc k).symm.trans hset)

/-- After a draw on a clear screen every cell of the mask is set, so the second draw collides wherever it draws. -/
theorem DrawsSprite.second_collides_iff (hd : DrawsSprite s x y n d)
    (he : DrawsSprite { s with fb := d.1 } x y n e) (hc : ∀ k, cell s.fb k = false) :
    e.2 = true ↔ ∃ k, inSprite s x y n k := by
  have hset (k : Fin 2048) (hk : inSprite s x y n k) : cell d.1 k = true := by rw [hd.flips k hk, hc k, Bool.not_false]
  exact he.collides_iff.trans (exists_congr fun k => and_iff_left_of_imp (hset k))

end

/-- Settles O41: with the registers put back, the second draw runs in the first state with the new framebuffer. -/
theorem drawTwiceRestoresTheScreen : Obligations.DrawTwiceRestoresTheScreen := by
  intro x y n s hn hr
  obtain ⟨d, hd, hfirst⟩ := exec_drw_of_range hn hr
  obtain ⟨e, he, hsecond⟩ := exec_drw_of_range (x := x) (y := y) (s := { s with fb := d.1 }) hn hr
  exact ⟨_, _, hfirst, hsecond, hd.restores he, fun hc =>
    ⟨(setFlag_VF_eq_zero_iff ..).2 (hd.not_collides_of_clear hc),
      (setFlag_VF_eq_one_iff ..).trans (hd.second_collides_iff he hc)⟩⟩

end Sys2Proof.Machine

end

section
/-! PROOFS. The keys (46_keys_timers.md R170 to R172, R176): the skips on the key that `V[x]` names, the fault of a byte
that names none, and the wait for a key. -/

namespace Sys2Proof.Machine

/-! ### The skips (R170, R171) -/

/-- R170: `Ex9E` on a byte that names key `k`. -/
theorem exec_skp_of_key {x : Reg} {s : State} {k : KeyIndex} (h : (s.reg x).toNat = k.val) :
    exec (.skp x) s = .next (s.skipIf (s.key k)) := by
  obtain ⟨j, hj, he⟩ := (execSkp_cases x s).resolve_right fun ⟨hge, _⟩ => by omega
  obtain rfl : j = k := Fin.ext (hj.trans h)
  exact he

/-- R171: `ExA1` on a byte that names key `k`. -/
theorem exec_sknp_of_key {x : Reg} {s : State} {k : KeyIndex} (h : (s.reg x).toNat = k.val) :
    exec (.sknp x) s = .next (s.skipIf (!s.key k)) := by
  obtain ⟨j, hj, he⟩ := (execSknp_cases x s).resolve_right fun ⟨hge, _⟩ => by omega
  obtain rfl : j = k := Fin.ext (hj.trans h)
  exact he

/-- A skip on the negation of a condition is the other way round (R110). -/
theorem skipIf_not (s : State) (c : Bool) : s.skipIf (!c) = if c = true then s else { s with pc := s.pc + 2 } := by
  cases c <;> rfl

/-- Settles O42: each skip tests the key that `V[x]` names. -/
theorem skipsOnKeys : Obligations.SkipsOnKeys :=
  fun _ s k h => ⟨exec_skp_of_key h, (exec_sknp_of_key h).trans (congrArg _ (skipIf_not s (s.key k)))⟩

/-- Settles O43: a byte of 16 or more names no key, so each skip takes the fault of its own word. -/
theorem keyNumberFaults : Obligations.KeyNumberFaults := by
  refine fun x s h => ⟨?skp, ?sknp⟩
  case skp => exact ((execSkp_cases x s).resolve_left fun ⟨_, _, _⟩ => by omega).2
  case sknp => exact ((execSknp_cases x s).resolve_left fun ⟨_, _, _⟩ => by omega).2

/-! ### The wait for a key (R172) -/

/-- R172: `Fx0A` takes the least pressed key `k`: any other key it took would be above `k`, with `k` released. -/
theorem exec_ldVxK_of_least {s : State} {k : KeyIndex} (x : Reg) (hk : s.key k = true)
    (hleast : ∀ j, j < k → s.key j = false) : exec (.ldVxK x) s = .next (s.setReg x (BitVec.ofNat 8 k.val)) := by
  rcases execLdVxK_cases x s with ⟨j, hj, hjleast, he⟩ | ⟨hnone, _⟩
  · have hjk : ¬ j < k := fun hlt => by simp [hleast j hlt] at hj
    have hkj : ¬ k < j := fun hlt => by simp [hjleast k hlt] at hk
    obtain rfl : j = k := Fin.le_antisymm (Fin.not_lt.1 hkj) (Fin.not_lt.1 hjk)
    exact he
  · simp [hnone k] at hk

/-- R172: with no key pressed `Fx0A` puts `PC` back by one instruction. -/
theorem exec_ldVxK_of_none {s : State} (x : Reg) (hnone : ∀ k, s.key k = false) :
    exec (.ldVxK x) s = .next (s.setPc (s.pc - 2)) := by
  refine ((execLdVxK_cases x s).resolve_left ?_).2
  rintro ⟨k, hk, _⟩
  simp [hnone k] at hk

/-- The number of a key fits a byte. -/
theorem keyByte_toNat (k : KeyIndex) : (BitVec.ofNat 8 k.val).toNat = k.val :=
  Nat.mod_eq_of_lt (k.isLt.trans (by decide))

/-- Going back by one instruction undoes the advance of the fetch, also where `PC` has wrapped. -/
theorem State.setPc_rewind_advance (s : State) : s.advance.setPc (s.advance.pc - 2) = s := by
  have hpc : s.advance.pc - 2 = s.pc := BitVec.add_sub_cancel s.pc 2
  rw [hpc]
  rfl

/-- Settles O44: with no key pressed the step advances `PC` and the instruction puts it back. -/
theorem keyWait : Obligations.KeyWait := by
  have hdecode (x : Reg) : decode (0xF#4 ++ fieldOf x ++ 0x0A#8) = .ok (.ldVxK x) :=
    decode_encode (i := .ldVxK x) rfl
  refine ⟨hdecode, fun x s k hk hleast => ⟨_, exec_ldVxK_of_least x hk hleast, rfl, ?key, ?others⟩,
    fun x s hnone => exec_ldVxK_of_none x hnone, fun x s hf hpc hnone hw => ?waits⟩
  case key => rw [setReg_result, keyByte_toNat]
  case others => exact fun r hr => setReg_other s hr _
  case waits =>
    calc step s = exec (.ldVxK x) s.advance := step_of_decode hf hpc (hw ▸ hdecode x)
      _ = .next (s.advance.setPc (s.advance.pc - 2)) := exec_ldVxK_of_none x hnone
      _ = .next s := congrArg _ s.setPc_rewind_advance

end Sys2Proof.Machine

end

section
/-! PROOFS. The faults (60_exceptions.md): what the execute phase can raise and when (R201, R202, R205, R207), that a
faulting step leaves no other effect (R208), and that only `RESET` clears the record (R210). -/

namespace Sys2Proof.Machine

/-! ### The fault of an instruction (R207) -/

/-- When the execute phase of an instruction, started in `s`, raises a fault, which one, and with what detail (R156,
R202, R205). -/
inductive RaisesFault (s : State) : Instr → FaultCause → Word → Prop
  | emptyStack : s.sp.val = 0 → RaisesFault s .ret .stackUnderflow 0
  | fullStack (nnn : Imm12) : s.sp.val = 16 → RaisesFault s (.call nnn) .stackOverflow 0
  | skpKey (x : Reg) : 16 ≤ (s.reg x).toNat → RaisesFault s (.skp x) .keyIndex (zext16 (s.reg x))
  | sknpKey (x : Reg) : 16 ≤ (s.reg x).toNat → RaisesFault s (.sknp x) .keyIndex (zext16 (s.reg x))
  | dataRange (i : Instr) : executeFault i = some .addrData → 0 < indexedBytes i →
      4096 < s.i.toNat + indexedBytes i → RaisesFault s i .addrData (addrInfo s.i)

/-- The fault record is as before. -/
def KeepsRecord (s t : State) : Prop :=
  t.faultCause = s.faultCause ∧ t.faultIr = s.faultIr ∧ t.faultInfo = s.faultInfo

theorem keepsRecord_skipIf (s : State) (c : Bool) : KeepsRecord s (s.skipIf c) :=
  ⟨s.skipIf_faultCause c, s.skipIf_faultIr c, s.skipIf_faultInfo c⟩

/-- R207, R208: an instruction ends in a next state with the record as it was, or has its fault's condition met and
writes nothing but the record. -/
theorem exec_cases (i : Instr) (s : State) :
    (∃ t, exec i s = .next t ∧ KeepsRecord s t) ∨
    (∃ c info, RaisesFault s i c info ∧ exec i s = .next (s.takeFault c (encode i) info)) := by
  cases i with
  | ret =>
    rcases execRet_cases s with ⟨_, _, _, he⟩ | ⟨h, he⟩
    · exact Or.inl ⟨_, he, rfl, rfl, rfl⟩
    · exact Or.inr ⟨_, _, .emptyStack h, he⟩
  | call nnn =>
    rcases execCall_cases nnn s with ⟨_, _, he⟩ | ⟨h, he⟩
    · exact Or.inl ⟨_, he, rfl, rfl, rfl⟩
    · exact Or.inr ⟨_, _, .fullStack nnn h, he⟩
  | skp x =>
    rcases execSkp_cases x s with ⟨_, _, he⟩ | ⟨h, he⟩
    · exact Or.inl ⟨_, he, keepsRecord_skipIf s _⟩
    · exact Or.inr ⟨_, _, .skpKey x h, he⟩
  | sknp x =>
    rcases execSknp_cases x s with ⟨_, _, he⟩ | ⟨h, he⟩
    · exact Or.inl ⟨_, he, keepsRecord_skipIf s _⟩
    · exact Or.inr ⟨_, _, .sknpKey x h, he⟩
  | drw x y n =>
    rcases execDrw_cases x y n s with ⟨_, _, _, he⟩ | ⟨⟨hpos, hr⟩, he⟩
    · exact Or.inl ⟨_, he, rfl, rfl, rfl⟩
    · exact Or.inr ⟨_, _, .dataRange _ rfl hpos hr, he⟩
  | ldB x =>
    rcases execLdB_cases x s with ⟨_, he⟩ | ⟨hr, he⟩
    · exact Or.inl ⟨_, he, rfl, rfl, rfl⟩
    · exact Or.inr ⟨_, _, .dataRange _ rfl (Nat.succ_pos 2) hr, he⟩
  | ldMemVx x =>
    rcases execLdMemVx_cases x s with ⟨_, he⟩ | ⟨hr, he⟩
    · exact Or.inl ⟨_, he, rfl, rfl, rfl⟩
    · exact Or.inr ⟨_, _, .dataRange _ rfl x.val.succ_pos hr, he⟩
  | ldVxMem x =>
    rcases execLdVxMem_cases x s with ⟨_, he⟩ | ⟨hr, he⟩
    · exact Or.inl ⟨_, he, rfl, rfl, rfl⟩
    · exact Or.inr ⟨_, _, .dataRange _ rfl x.val.succ_pos hr, he⟩
  | ldVxK x =>
    rcases execLdVxK_cases x s with ⟨_, _, _, he⟩ | ⟨_, he⟩ <;> exact Or.inl ⟨_, he, rfl, rfl, rfl⟩
  | seImm | sneImm | seReg | sneReg => exact Or.inl ⟨_, rfl, keepsRecord_skipIf s _⟩
  | _ => exact Or.inl ⟨_, rfl, rfl, rfl, rfl⟩

/-- What is known of the next state of an instruction. -/
theorem exec_next_cases {i : Instr} {s t : State} (h : exec i s = .next t) :
    KeepsRecord s t ∨ ∃ c info, RaisesFault s i c info ∧ t = s.takeFault c (encode i) info := by
  rcases exec_cases i s with ⟨_, he, hkeep⟩ | ⟨c, info, hraise, he⟩ <;> cases he.symm.trans h
  · exact Or.inl hkeep
  · exact Or.inr ⟨c, info, hraise, rfl⟩

/-! ### What a raised fault says (R200, R204) -/

section
variable {s : State} {i : Instr} {c : FaultCause} {info : Word}

theorem RaisesFault.executeFault_eq (h : RaisesFault s i c info) : executeFault i = some c := by
  cases h with
  | dataRange _ hcause => exact hcause
  | _ => rfl

theorem RaisesFault.of_addrData (h : RaisesFault s i .addrData info) :
    0 < indexedBytes i ∧ 4096 ≤ s.i.toNat + indexedBytes i - 1 ∧ info.toNat = max s.i.toNat 4096 := by
  cases h with
  | dataRange _ _ hpos hr => exact ⟨hpos, Nat.le_sub_one_of_lt hr, addrInfo_toNat s.i⟩

/-- The key number is that of the register the faulting word names. -/
theorem RaisesFault.of_keyIndex (h : RaisesFault s i .keyIndex info) :
    info = zext16 (s.reg (fieldX (encode i))) ∧ 16 ≤ (s.reg (fieldX (encode i))).toNat := by
  cases h with
  | skpKey x hx | sknpKey x hx => rw [encode, fieldX_wordXNN]; exact ⟨rfl, hx⟩

theorem RaisesFault.of_stackOverflow (h : RaisesFault s i .stackOverflow info) : info = 0 ∧ s.sp.val = 16 := by
  cases h with
  | fullStack _ hfull => exact ⟨rfl, hfull⟩

theorem RaisesFault.of_stackUnderflow (h : RaisesFault s i .stackUnderflow info) : info = 0 ∧ s.sp.val = 0 := by
  cases h with
  | emptyStack hempty => exact ⟨rfl, hempty⟩

/-- The faults of the fetch and of the decoder are none of the execute phase (R207). -/
theorem RaisesFault.cause_ne (h : RaisesFault s i c info) : c ≠ .addrFetch ∧ c ≠ .decode := by
  cases h <;> decide

end

/-- Settles O11. -/
theorem executeRaisesOnlyItsOwnFault : Obligations.ExecuteRaisesOnlyItsOwnFault := by
  intro i s t h
  rcases exec_next_cases h with hkeep | ⟨c, info, hraise, rfl⟩
  · exact Or.inl hkeep
  · exact Or.inr ⟨hraise.executeFault_eq, rfl⟩

/-! ### Steps (R183, R208) -/

/-- Settles O9: of the four ways a step goes, three name their next state and the fourth is an instruction. -/
theorem stepAlwaysAnswersNext : Obligations.StepAlwaysAnswersNext := by
  intro s
  rcases step_cases s with ⟨_, he⟩ | ⟨_, _, he⟩ | ⟨_, _, _, _, _, _, he⟩ | ⟨_, i, _, _, _, _, he⟩
  · exact ⟨_, he⟩
  · exact ⟨_, he⟩
  · exact ⟨_, he⟩
  · rcases exec_cases i s.advance with ⟨_, hx, _⟩ | ⟨_, _, _, hx⟩ <;> exact ⟨_, he.trans hx⟩

/-- The instruction word at `PC`, its high byte at the lower address (R57). -/
def State.wordAtPc (s : State) : Word := s.byteAt s.pc.toNat ++ s.byteAt (s.pc.toNat + 1)

/-- What is known of the next state of a step of an unfaulted core, by its fetch and its decode. -/
theorem step_next_cases {s t : State} (hf : s.faulted = false) (h : step s = .next t) :
    (4095 ≤ s.pc.toNat ∧ t = s.fetchFault) ∨
    (∃ r, s.pc.toNat ≤ 4094 ∧ decode s.wordAtPc = .error r ∧ t = s.decodeFault s.wordAtPc) ∨
    (∃ i, s.pc.toNat ≤ 4094 ∧ decode s.wordAtPc = .ok i ∧ exec i s.advance = .next t) := by
  by_cases hpc : s.pc.toNat ≤ 4094
  · refine Or.inr ?_
    cases hd : decode s.wordAtPc with
    | error r => cases (step_of_illegal hf hpc hd).symm.trans h; exact Or.inl ⟨r, hpc, rfl, rfl⟩
    | ok i => exact Or.inr ⟨i, hpc, rfl, (step_of_decode hf hpc hd).symm.trans h⟩
  · have hpast : 4095 ≤ s.pc.toNat := by omega
    cases (step_of_fetchPastEnd hf hpast).symm.trans h
    exact Or.inl ⟨hpast, rfl⟩

/-- Settles O10: the fault of the fetch, of the decoder, or of the instruction, whose record was clear before. -/
theorem faultsArePrecise : Obligations.FaultsArePrecise := by
  intro s t hf h ht
  rcases step_next_cases hf h with ⟨hpc, rfl⟩ | ⟨r, hpc, hd, rfl⟩ | ⟨i, hpc, hd, hexec⟩
  case inl => exact ⟨rfl, fun _ => ⟨rfl, rfl, rfl, addrInfo_toNat s.pc⟩, fun hle => by omega⟩
  case inr.inl =>
    exact ⟨rfl, fun hge => by omega, fun _ =>
      ⟨nofun, rfl, rfl, fun hne => absurd rfl hne, nofun, nofun, nofun, fun _ => ⟨rfl, r, hd⟩⟩⟩
  case inr.inr =>
    rcases exec_next_cases hexec with ⟨hcause, _, _⟩ | ⟨c, info, hraise, rfl⟩
    · exact absurd (hcause.trans (s.not_faulted_iff.1 hf)) (t.faulted_iff.1 ht)
    · have hword : encode i = s.wordAtPc := (encode_of_decode hd).1
      obtain ⟨hfetch, hdecode⟩ := hraise.cause_ne
      have hdec : decode (encode i) = .ok i := hword.symm ▸ hd
      refine ⟨rfl, fun hge => by omega, fun _ =>
        ⟨hfetch, rfl, hword, fun _ => ⟨i, hdec, hraise.executeFault_eq, ?data⟩, ?key, ?full, ?empty,
          fun hc => absurd hc hdecode⟩⟩
      case data => rintro rfl; exact hraise.of_addrData
      case key => rintro rfl; exact hraise.of_keyIndex
      case full => rintro rfl; exact hraise.of_stackOverflow
      case empty => rintro rfl; exact hraise.of_stackUnderflow

/-! ### The faulted core (R210, R212) -/

theorem step_of_faulted {s : State} (hf : s.faulted = true) : step s = .next s := if_pos hf

/-- D12: in a faulted core every host operation but `RESET` leaves the record and `PC`. -/
theorem hostOp_keeps_fault {s t : State} {op : HostOp} (hf : s.faulted = true) (hop : op ≠ .reset)
    (h : hostOp op s = .next t) : KeepsRecord s t ∧ t.pc = s.pc := by
  cases op with
  | reset => exact absurd rfl hop
  | step => cases (step_of_faulted hf).symm.trans h; exact ⟨⟨rfl, rfl, rfl⟩, rfl⟩
  | load image =>
    cases h
    rcases load_cases s image with ⟨_, he⟩ | ⟨_, he⟩ <;> rw [he] <;> exact ⟨⟨rfl, rfl, rfl⟩, rfl⟩
  | tick | setKey | display => cases h; exact ⟨⟨rfl, rfl, rfl⟩, rfl⟩

/-- Settles O8. -/
theorem onlyResetClearsAFault : Obligations.OnlyResetClearsAFault := by
  refine fun s t op hf h => ⟨?step, ?reset, fun hop => ?others⟩
  case step => rintro rfl; cases (step_of_faulted hf).symm.trans h; rfl
  case reset => rintro rfl; cases h; rfl
  case others =>
    obtain ⟨⟨hcause, hir, hinfo⟩, hpc⟩ := hostOp_keeps_fault hf hop h
    exact ⟨hcause, hir, hinfo, hpc⟩

end Sys2Proof.Machine

end

section
/-! PROOFS. The host operations (50_host_interface.md): `STEP` and the end of a run (R183, R241), `SET_KEY` (R186),
`LOAD` (R187, R188) and `TICK` (R217). -/

namespace Sys2Proof.Machine

/-! ### STEP (R183, R241) -/

/-- Settles O5. -/
theorem stepRunsDecodedInstruction : Obligations.StepRunsDecodedInstruction :=
  fun _ _ hf hpc hd => step_of_decode hf hpc hd

/-- What a state at the end of a run is (R241): a jump to itself at `PC`. -/
theorem exists_jp_of_runEnded {s : State} (h : s.runEnded = true) :
    ∃ nnn : Imm12, s.faulted = false ∧ s.pc.toNat ≤ 4094 ∧ immAddr nnn = s.pc ∧
      decode s.wordAtPc = .ok (.jp nnn) := by
  unfold State.runEnded at h
  rw [Bool.and_eq_true, Bool.not_eq_true'] at h
  obtain ⟨hf, hjump⟩ := h
  rcases fetch_cases s with ⟨hpc, hfetch⟩ | ⟨_, hfetch⟩ <;> rw [hfetch] at hjump
  · dsimp only at hjump
    split at hjump
    · exact ⟨_, hf, hpc, of_decide_eq_true hjump, ‹_›⟩
    · cases hjump
  · cases hjump

/-- Settles O50: the step advances `PC` and the jump puts it back. -/
theorem endOfRunIsAFixpoint : Obligations.EndOfRunIsAFixpoint := by
  intro s h
  obtain ⟨nnn, hf, hpc, htarget, hd⟩ := exists_jp_of_runEnded h
  calc step s = exec (.jp nnn) s.advance := step_of_decode hf hpc hd
    _ = .next (s.advance.setPc (immAddr nnn)) := rfl
    _ = .next s := by rw [htarget]; rfl

/-! ### SET_KEY (R186) -/

/-- Settles O47. -/
theorem setKeyWritesOneLatch : Obligations.SetKeyWritesOneLatch :=
  fun s k p => ⟨_, rfl, rfl, fun j => s.setKey_key k j p⟩

/-! ### LOAD (R187, R188) -/

theorem hostOp_load_of_fits {s : State} {image : List Byte} (h : image.length ≤ 3584) :
    hostOp (.load image) s = .next (s.putBytes 0x200 image) := by
  obtain ⟨_, he⟩ := (load_cases s image).resolve_right fun ⟨hlt, _⟩ => by omega
  rw [hostOp, he]
  rfl

theorem hostOp_load_of_tooLong {s : State} {image : List Byte} (h : 3584 < image.length) :
    hostOp (.load image) s = .next s := by
  obtain ⟨_, he⟩ := (load_cases s image).resolve_left fun ⟨hle, _⟩ => by omega
  rw [hostOp, he]
  rfl

theorem loadRejected_load_iff (image : List Byte) : loadRejected (.load image) = true ↔ 3584 < image.length := by
  simp [loadRejected, imageFits]

/-- Settles O48. -/
theorem loadCopiesOrIsRejected : Obligations.LoadCopiesOrIsRejected := by
  refine fun s image => ⟨fun hl hm => ⟨?accepted, _, hostOp_load_of_fits hl, rfl, ?inside, ?outside⟩,
    fun hl => ⟨(loadRejected_load_iff image).2 hl, hostOp_load_of_tooLong hl⟩⟩
  case accepted => exact Bool.eq_false_iff.2 fun h => absurd ((loadRejected_load_iff image).1 h) hl.not_gt
  case inside => exact fun k hk => byteAt_putBytes_inside hm (by omega) hk
  case outside => exact fun a ha => byteAt_putBytes_of_outside ha

/-! ### TICK and the timers (R217) -/

/-- A tick floors at 0, as the subtraction of natural numbers does. -/
theorem countDown_toNat (b : Byte) : (countDown b).toNat = b.toNat - 1 := by
  unfold countDown
  split
  · next h => rw [h]; rfl
  · next h => bv_omega

theorem tickPulse_eq (s : State) : s.tickPulse = decide (s.st.toNat = 1) :=
  decide_eq_decide.2 BitVec.toNat_inj.symm

/-- R28, R38: only `Fx15` writes `DT`. -/
theorem exec_dt_cases {i : Instr} {s t : State} (h : exec i s = .next t) :
    t.dt = s.dt ∨ ∃ x, i = .ldDtVx x ∧ t.dt = s.reg x := by
  cases i with
  | ldDtVx x => cases h; exact Or.inr ⟨x, rfl, rfl⟩
  | _ => exact Or.inl (exec_keeps_piece (p := .dt) h rfl)

/-- R29, R38: only `Fx18` writes `ST`. -/
theorem exec_st_cases {i : Instr} {s t : State} (h : exec i s = .next t) :
    t.st = s.st ∨ ∃ x, i = .ldStVx x ∧ t.st = s.reg x := by
  cases i with
  | ldStVx x => cases h; exact Or.inr ⟨x, rfl, rfl⟩
  | _ => exact Or.inl (exec_keeps_piece (p := .st) h rfl)

/-- A host operation other than `TICK` and `RESET` keeps both timers, or is a step that executes an instruction. -/
theorem hostOp_timers_cases {s t : State} {op : HostOp} (htick : op ≠ .tick) (hreset : op ≠ .reset)
    (h : hostOp op s = .next t) :
    (t.dt = s.dt ∧ t.st = s.st) ∨
    (∃ i, op = .step ∧ decode s.wordAtPc = .ok i ∧ exec i s.advance = .next t) := by
  cases op with
  | tick => exact absurd rfl htick
  | reset => exact absurd rfl hreset
  | setKey | display => cases h; exact Or.inl ⟨rfl, rfl⟩
  | load image =>
    cases h
    rcases load_cases s image with ⟨_, he⟩ | ⟨_, he⟩ <;> rw [he] <;> exact Or.inl ⟨rfl, rfl⟩
  | step =>
    cases hf : s.faulted with
    | true => cases (step_of_faulted hf).symm.trans h; exact Or.inl ⟨rfl, rfl⟩
    | false =>
      rcases step_next_cases hf h with ⟨_, rfl⟩ | ⟨_, _, _, rfl⟩ | ⟨i, _, hd, hexec⟩
      · exact Or.inl ⟨rfl, rfl⟩
      · exact Or.inl ⟨rfl, rfl⟩
      · exact Or.inr ⟨i, rfl, hd, hexec⟩

/-- Settles O46. -/
theorem onlyTheTickCountsDown : Obligations.OnlyTheTickCountsDown := by
  refine ⟨fun s => ⟨tickPulse_eq s, _, rfl, rfl, countDown_toNat s.dt, countDown_toNat s.st⟩, ?_⟩
  intro s t op htick hreset h
  rcases hostOp_timers_cases htick hreset h with ⟨hdt, hst⟩ | ⟨i, rfl, hd, hexec⟩
  · exact ⟨Or.inl hdt, Or.inl hst⟩
  · refine ⟨(exec_dt_cases hexec).imp_right ?_, (exec_st_cases hexec).imp_right ?_⟩ <;>
      (rintro ⟨x, rfl, hx⟩; exact ⟨x, rfl, hx, hd⟩)

end Sys2Proof.Machine

end

section
/-! PROOFS. The `LOAD` burst at the signal level (50_host_interface.md R181, R182, R187, R188). -/

namespace Sys2Proof.Machine

/-! ### Single edges -/

/-- R182: an `IDLE` edge only lets the one-cycle outputs fall. -/
theorem edge_of_idle {p : Pins} (hrst : p.rst = false) (hidle : command p = .idle) (s : State) (u : Option Burst)
    (a b : Bool) : edge p ⟨s, u, a, b⟩ = .next ⟨s, u, false, false⟩ := by
  cases u <;> simp [edge, edgeFree, edgeBurst, hrst, hidle]

/-- R187: outside a burst, the length on `ld_len` is the one announced. -/
theorem edge_pinsLoadBegin {len : Nat} (h : len < 8192) (s : State) (a b : Bool) :
    edge (pinsLoadBegin len) ⟨s, none, a, b⟩ = .next (loadBegin len s) := by
  have hlen : (pinsLoadBegin len).ldLen.toNat = len := Nat.mod_eq_of_lt h
  change Host.Outcome.next (loadBegin (pinsLoadBegin len).ldLen.toNat s) = _
  rw [hlen]

/-- The burst that waits for `left` more bytes, the next for offset `offset`: none where no byte is left (R187). -/
def burstFor (offset left : Nat) : Option Burst := if left = 0 then none else some ⟨offset, left⟩

theorem loadBegin_of_fits {len : Nat} (h : len ≤ 3584) (s : State) :
    loadBegin len s = ⟨s, burstFor 0 len, false, false⟩ := if_pos h

theorem loadBegin_of_tooLong {len : Nat} (h : 3584 < len) (s : State) :
    loadBegin len s = ⟨s, none, false, true⟩ := if_neg h.not_ge

/-- R187: in a burst, a byte is written and the burst moves on to the next one. -/
theorem edge_pinsLoadData (byte : Byte) (s : State) (offset left : Nat) (a b : Bool) :
    edge (pinsLoadData byte) ⟨s, burstFor offset (left + 1), a, b⟩ =
      .next ⟨s.putBytes (0x200 + offset) [byte], burstFor (offset + 1) left, false, false⟩ := by
  cases left <;> rfl

/-! ### Sequences of edges -/

theorem runEdges_cons {p : Pins} {q r : PortState} (h : edge p q = .next r) (ps : List Pins) :
    runEdges (p :: ps) q = runEdges ps r := by
  rw [runEdges, h]

/-- The edges that present something, in order. -/
def presented (edges : List Pins) : List Pins := edges.filter fun p => command p != .idle

theorem presented_cons_of_idle {p : Pins} (h : command p = .idle) (ps : List Pins) :
    presented (p :: ps) = presented ps := List.filter_cons_of_neg (by simp [h])

theorem presented_cons_of_command {p : Pins} (h : command p ≠ .idle) (ps : List Pins) :
    presented (p :: ps) = p :: presented ps := List.filter_cons_of_pos (by simp [h])

/-- R187: a burst in progress takes its bytes, whatever `IDLE` edges stand between them, and closes. -/
theorem runEdges_of_data {edges : List Pins} (hrst : ∀ p ∈ edges, p.rst = false) {bytes : List Byte}
    (hdata : presented edges = bytes.map pinsLoadData) (s : State) (offset : Nat) :
    runEdges edges ⟨s, burstFor offset bytes.length, false, false⟩ =
      .next ⟨s.putBytes (0x200 + offset) bytes, none, false, false⟩ := by
  induction edges generalizing bytes s offset with
  | nil =>
    obtain rfl := List.map_eq_nil_iff.1 hdata.symm
    rfl
  | cons p ps ih =>
    obtain ⟨hp, hps⟩ := List.forall_mem_cons.1 hrst
    by_cases hidle : command p = .idle
    · rw [presented_cons_of_idle hidle] at hdata
      rw [runEdges_cons (edge_of_idle hp hidle ..)]
      exact ih hps hdata s offset
    · rw [presented_cons_of_command hidle] at hdata
      obtain ⟨byte, rest, rfl, rfl, hrest⟩ := List.map_eq_cons_iff.1 hdata.symm
      rw [List.length_cons, runEdges_cons (edge_pinsLoadData ..)]
      exact ih hps hrest.symm _ (offset + 1)

/-- R187: a burst of an image that fits, whatever `IDLE` edges stand before, between and after, copies the image. -/
theorem runEdges_of_loadBurst {edges : List Pins} (hrst : ∀ p ∈ edges, p.rst = false) {image : List Byte}
    (hl : image.length ≤ 3584) (hburst : presented edges = loadBurst image) (s : State) (a b : Bool) :
    runEdges edges ⟨s, none, a, b⟩ = .next ⟨s.putBytes 0x200 image, none, false, false⟩ := by
  induction edges generalizing a b with
  | nil => cases hburst
  | cons p ps ih =>
    obtain ⟨hp, hps⟩ := List.forall_mem_cons.1 hrst
    by_cases hidle : command p = .idle
    · rw [presented_cons_of_idle hidle] at hburst
      rw [runEdges_cons (edge_of_idle hp hidle ..)]
      exact ih hps hburst false false
    · rw [presented_cons_of_command hidle] at hburst
      obtain ⟨rfl, hdata⟩ := List.cons_eq_cons.1 hburst
      rw [runEdges_cons (edge_pinsLoadBegin (by omega) ..), loadBegin_of_fits hl]
      exact runEdges_of_data hps hdata s 0

/-- Settles O49: both levels write the same bytes from the load address upward. -/
theorem loadBurstIsLoad : Obligations.LoadBurstIsLoad := by
  refine fun s a b => ⟨fun image edges hl hrst hburst => ?_, fun len hlong hlen => ?_⟩
  · obtain ⟨_, he⟩ := (load_cases s image).resolve_right fun ⟨hlt, _⟩ => by omega
    exact ⟨_, he, runEdges_of_loadBurst hrst hl hburst s a b⟩
  · rw [edge_pinsLoadBegin hlen, loadBegin_of_tooLong hlong]

end Sys2Proof.Machine

end
